-- ==== Sys2Proof/Word.lean ====
section
/-! DEFINITION. The widths the spec gives its registers, operands and ports (spec/00_scope.md R6, R8;
spec/10_state.md R11; spec/20_memory.md R26). Everything is unsigned (R10). -/

namespace Sys2Proof

/-- A 32-bit value: an accumulator, a packed checksum value, the operand of SEED, the `res` port. -/
abbrev Word := BitVec 32

/-- One half of a checksum value (R16). -/
abbrev Half := BitVec 16

/-- An input byte, or one value of the `obyte` port (R26, R27). -/
abbrev Byte := BitVec 8

/-- The block counter (R14). -/
abbrev Count := BitVec 13

/-- A command word on the `cmd` port (R36). -/
abbrev CommandWord := BitVec 40

end Sys2Proof
end

