-- ==== Sys2Proof/Syntax.lean ====
section
/-! DEFINITION. The seven commands (spec/30_encoding.md R39), one constructor per row of the opcode table. -/

namespace Sys2Proof

/-- A command, with its operand as the decoder takes it from the word (R38, R40). -/
inductive Instr where
  /-- NOP, op 0x00 (R48) -/
  | nop
  /-- INIT, op 0x01 (R49) -/
  | init
  /-- SEED p, op 0x02, `p` any 32-bit value (R50) -/
  | seed (p : Word)
  /-- BYTE x, op 0x03, `x` any byte (R51) -/
  | byte (x : Byte)
  /-- FLUSH, op 0x04 (R54) -/
  | flush
  /-- READ, op 0x05 (R59) -/
  | read
  /-- EMIT, op 0x06 (R60) -/
  | emit
  deriving DecidableEq, Repr

/-- The mnemonic, as the table spells it (R39, R44). -/
def Instr.mnemonic : Instr → String
  | .nop => "NOP"
  | .init => "INIT"
  | .seed _ => "SEED"
  | .byte _ => "BYTE"
  | .flush => "FLUSH"
  | .read => "READ"
  | .emit => "EMIT"

end Sys2Proof
end

