-- ==== Sys2Proof/WellFormed.lean ====
section
/-! DEFINITION. What is well formed. A decoded command always is: every value of its operand is legal (spec/30_encoding.md
R38). The checks are on the source lines an assembler reads, whose operands are plain numbers (R44, R45). -/

namespace Sys2Proof

/-- Every command is well formed: all bytes and all seeds are valid (R38), and the operand types admit nothing else. -/
def Instr.wellFormed : Instr → Bool
  | .nop => true
  | .init => true
  | .seed _ => true
  | .byte _ => true
  | .flush => true
  | .read => true
  | .emit => true

/-- One line of a listing before its operands are checked: the seven commands and the directive WORD (R44), and the
pseudo-commands (R45). -/
inductive SourceLine where
  | nop
  | init
  | seed (p : Nat)
  | byte (x : Nat)
  | flush
  | read
  | emit
  /-- the raw directive `WORD w` -/
  | word (w : Nat)
  /-- `CHUNK S` -/
  | chunk (bytes : List Nat)
  /-- `CALC S` -/
  | calc (bytes : List Nat)
  /-- `UPDATE p, S` -/
  | update (p : Nat) (bytes : List Nat)
  /-- `CONT S` -/
  | cont (bytes : List Nat)
  /-- `FOOTER` -/
  | footer
  deriving DecidableEq, Repr

/-- A 32-bit operand is in range (R44). -/
def inWordRange (p : Nat) : Bool := decide (p < 2 ^ 32)

/-- A byte operand is in range (R44). -/
def inByteRange (x : Nat) : Bool := decide (x < 2 ^ 8)

/-- A raw word is in range (R44). -/
def inCommandRange (w : Nat) : Bool := decide (w < 2 ^ 40)

/-- The operands of a line are in range; an assembler refuses the others and never truncates (R44). -/
def SourceLine.wellFormed : SourceLine → Bool
  | .nop => true
  | .init => true
  | .seed p => inWordRange p
  | .byte x => inByteRange x
  | .flush => true
  | .read => true
  | .emit => true
  | .word w => inCommandRange w
  | .chunk bytes => bytes.all inByteRange
  | .calc bytes => bytes.all inByteRange
  | .update p bytes => inWordRange p && bytes.all inByteRange
  | .cont bytes => bytes.all inByteRange
  | .footer => true

end Sys2Proof
end

