-- ==== Sys2Proof/Decode.lean ====
section
/-! DEFINITION. The command word, its decoder, its encoder and the opcode table (spec/30_encoding.md R36 to R43). -/

namespace Sys2Proof

/-- Why a word is illegal: the three cases of R41. The engine itself does not distinguish them (spec/60_exceptions.md
R74); the names are the decoder's (DESIGN CHOICE, log entry 6). -/
inductive IllegalWord where
  /-- (a) `op` in 0x07 to 0xFF -/
  | undefinedOpcode
  /-- (b) a Z-format opcode with `imm` not zero -/
  | operandOfZFormat
  /-- (c) `op = 0x03` with `imm[31:8]` not zero -/
  | reservedBitsOfByte
  deriving DecidableEq, Repr

/-- `cw[39:32]` (R36). -/
def opField (cw : CommandWord) : BitVec 8 := cw.extractLsb' 32 8

/-- `cw[31:0]` (R36). -/
def immField (cw : CommandWord) : Word := cw.extractLsb' 0 32

/-- A Z-format opcode: the operand field must be zero (R37). -/
def decodeZ (i : Instr) (imm : Word) : Except IllegalWord Instr :=
  if imm = 0#32 then .ok i else .error .operandOfZFormat

/-- The B format: `imm[31:8]` must be zero, `imm[7:0]` is the byte (R37, R38). -/
def decodeB (imm : Word) : Except IllegalWord Instr :=
  if imm.extractLsb' 8 24 = 0#24 then .ok (.byte (imm.extractLsb' 0 8)) else .error .reservedBitsOfByte

/-- Decoding is total: every 40-bit word gives one command or one reason why it gives none (R40, R41). It does not
depend on the state. -/
def decode (cw : CommandWord) : Except IllegalWord Instr :=
  if opField cw = 0x00#8 then decodeZ .nop (immField cw)
  else if opField cw = 0x01#8 then decodeZ .init (immField cw)
  else if opField cw = 0x02#8 then .ok (.seed (immField cw))
  else if opField cw = 0x03#8 then decodeB (immField cw)
  else if opField cw = 0x04#8 then decodeZ .flush (immField cw)
  else if opField cw = 0x05#8 then decodeZ .read (immField cw)
  else if opField cw = 0x06#8 then decodeZ .emit (immField cw)
  else .error .undefinedOpcode

/-- `op` and `imm` side by side, `op` the more significant (R36). -/
def commandWord (op : BitVec 8) (imm : Word) : CommandWord := op ++ imm

/-- The word of a command (R37, R39, R44). -/
def encode : Instr → CommandWord
  | .nop => commandWord 0x00#8 0#32
  | .init => commandWord 0x01#8 0#32
  | .seed p => commandWord 0x02#8 p
  | .byte x => commandWord 0x03#8 (x.setWidth 32)
  | .flush => commandWord 0x04#8 0#32
  | .read => commandWord 0x05#8 0#32
  | .emit => commandWord 0x06#8 0#32

/-- One row of the opcode map of R39: a word is the row's command exactly when `(cw & mask) = pattern`. -/
structure TableRow where
  mnemonic : String
  /-- the column `match` -/
  pattern : CommandWord
  /-- the column `mask` -/
  mask : CommandWord
  deriving DecidableEq, Repr

/-- The opcode map, row by row as R39 prints it. -/
def opcodeTable : List TableRow :=
  [ ⟨"NOP", 0x0000000000#40, 0xFFFFFFFFFF#40⟩,
    ⟨"INIT", 0x0100000000#40, 0xFFFFFFFFFF#40⟩,
    ⟨"SEED", 0x0200000000#40, 0xFF00000000#40⟩,
    ⟨"BYTE", 0x0300000000#40, 0xFFFFFFFF00#40⟩,
    ⟨"FLUSH", 0x0400000000#40, 0xFFFFFFFFFF#40⟩,
    ⟨"READ", 0x0500000000#40, 0xFFFFFFFFFF#40⟩,
    ⟨"EMIT", 0x0600000000#40, 0xFFFFFFFFFF#40⟩ ]

/-- The word matches the row (R39). -/
def TableRow.fits (r : TableRow) (cw : CommandWord) : Bool := (cw &&& r.mask) == r.pattern

/-- The row of the opcode map that is a command's own. -/
def Instr.row : Instr → TableRow
  | .nop => ⟨"NOP", 0x0000000000#40, 0xFFFFFFFFFF#40⟩
  | .init => ⟨"INIT", 0x0100000000#40, 0xFFFFFFFFFF#40⟩
  | .seed _ => ⟨"SEED", 0x0200000000#40, 0xFF00000000#40⟩
  | .byte _ => ⟨"BYTE", 0x0300000000#40, 0xFFFFFFFF00#40⟩
  | .flush => ⟨"FLUSH", 0x0400000000#40, 0xFFFFFFFFFF#40⟩
  | .read => ⟨"READ", 0x0500000000#40, 0xFFFFFFFFFF#40⟩
  | .emit => ⟨"EMIT", 0x0600000000#40, 0xFFFFFFFFFF#40⟩

/-- The 40-bit word whose low `nbits` bits are those of `w`, the bits above zero. The `cmd` port carries the word as one
number, with no byte order (R36; DEDUCED, log entry 11). -/
def tableWord (nbits w : Nat) : CommandWord := BitVec.ofNat 40 (w % 2 ^ nbits)

/-- What `decode` reads from an instruction given by its bits as the opcode table numbers them. -/
def decodeTableWord (nbits w : Nat) : Option Instr :=
  match decode (tableWord nbits w) with
  | .ok i => some i
  | .error _ => none

end Sys2Proof
end

