-- ==== Sys2Proof/Machine/State.lean ====
section
/-! DEFINITION. The state of one engine instance (spec/10_state.md R11) with, beside it and as plain data, what the host
will present and what the engine has put out. -/

namespace Sys2Proof.Machine

/-- What the host presents between two steps (spec/20_memory.md R26, ports `cmd` and `reset`; spec/30_encoding.md R46:
a program is a list of reset events and command words). -/
inductive Stimulus where
  /-- one word on `cmd` -/
  | command (cw : CommandWord)
  /-- a reset event -/
  | reset
  /-- a reset and a word presented together: the reset is ordered first (spec/60_exceptions.md R77) -/
  | resetAndCommand (cw : CommandWord)
  deriving DecidableEq, Repr

/-- An output event (spec/00_scope.md R10; spec/20_memory.md R26). -/
inductive OutEvent where
  /-- `Out.RES(v)`: a value on the `res` port -/
  | res (v : Word)
  /-- `Out.BYTE(b)`: a byte on the `obyte` port -/
  | byte (b : Byte)
  deriving DecidableEq, Repr

/-- The state. `A`, `B`, `CNT` and `ERR` are the whole architectural state (R11); `pending` and `trace` are the model's
own fields for the host's side of the ports (DESIGN CHOICE, log entries 1 and 3). The registers are held exactly,
unreduced (R21, option (a); DESIGN CHOICE, log entry 13). -/
structure State where
  /-- accumulator of the half `a`, possibly unreduced (R12) -/
  A : Word
  /-- accumulator of the half `b`, possibly unreduced (R13) -/
  B : Word
  /-- bytes absorbed since the last reduction (R14) -/
  CNT : Count
  /-- the sticky fault flag (R15) -/
  ERR : Bool
  /-- what the host will present, next first -/
  pending : List Stimulus
  /-- the output events so far, oldest first (spec/20_memory.md R32) -/
  trace : List OutEvent
  deriving DecidableEq, Repr

/-- The reasons a step can stop the machine: none. The one exception of the spec, `IllegalCommand`, is taken as a next
state with `ERR = 1` (spec/60_exceptions.md R78; DEDUCED, log entry 5), and the spec's step function is total (R47). -/
inductive Fault where
  deriving DecidableEq, Repr

/-- The reasons for giving an instruction no meaning. -/
inductive Refusal where
  /-- Raised by an arm of `exec` for an instruction without a meaning. No arm of this model raises it. Safe: the
  machine stops where the hardware would go on. -/
  | notModelled (mnemonic : String)
  deriving DecidableEq, Repr

/-- The machine right after reset (spec/10_state.md R24, spec/70_reset_and_hazards.md R86), with nothing presented and
nothing put out yet (DESIGN CHOICE, log entries 1 and 3). -/
def State.reset : State :=
  { A := 0x00000001#32, B := 0x00000000#32, CNT := 0#13, ERR := false, pending := [], trace := [] }

end Sys2Proof.Machine
end

