-- ==== Sys2Proof/Machine/Flags.lean ====
section
/-! DEFINITION. The one flag, `ERR` (spec/10_state.md R15): writing it, the `err` level, and the fault gate. No arithmetic
result touches it. -/

namespace Sys2Proof.Machine

/-- `ERR <- e`. -/
def State.withErr (s : State) (e : Bool) : State := { s with ERR := e }

/-- The level on the `err` output, one bit, equal to `ERR` at every moment (spec/60_exceptions.md R81). -/
def errLevel (s : State) : BitVec 1 := BitVec.ofBool s.ERR

/-- The fault gate: while `ERR = 1` a command changes no register and puts nothing out
(spec/40_control_commands.md R47). Every meaning is behind it (DEDUCED, log entry 14). -/
def gate (effect : State → State) (s : State) : State := if s.ERR then s else effect s

end Sys2Proof.Machine
end

