-- ==== Sys2Proof/Config.lean ====
section
/-! DEFINITION. The constants of the algorithm (spec/00_scope.md R5 to R8; spec/10_state.md R18). They are fixed, not
parameters, and no command reads or writes them. The spec leaves no value open, so there is no free value here. -/

namespace Sys2Proof.Config

/-- The modulus `M` (R5). -/
def M : Nat := 65521

/-- The block size `NMAX` (R7). -/
def NMAX : Nat := 5552

/-- The accumulator width `W` (R6). -/
def W : Nat := 32

/-- The identity value, packed (R5, R17). -/
def INIT_VALUE : Word := 0x00000001#32

/-- The greatest value `B` can reach in a block of `n` bytes that starts reduced (R7). -/
def blockBound (n : Nat) : Nat := (n + 1) * (M - 1) + 255 * n * (n + 1) / 2

/-- `n` is `NMAX(w)`: the largest block size whose bound fits `w` bits (R7; the expression of the source's section 9 is
not this one, spec/90_conflicts.md C3). -/
def IsBlockSize (w n : Nat) : Prop :=
  blockBound n ≤ 2 ^ w - 1 ∧ ∀ m, blockBound m ≤ 2 ^ w - 1 → m ≤ n

end Sys2Proof.Config
end

