-- ==== Sys2Proof/Machine/Operands.lean ====
section
/-! DEFINITION. The operand forms and value forms: zero extension, the two halves of a packed value, packing, the
big-endian byte form, the modular remainder (spec/00_scope.md R10; spec/10_state.md R16, R17; spec/20_memory.md R28). -/

namespace Sys2Proof.Machine

/-- `zext_32` of a byte (R10, R38). -/
def zextByte (x : Byte) : Word := x.setWidth 32

/-- `zext_32` of a half (R10). -/
def zextHalf (h : Half) : Word := h.setWidth 32

/-- `lo16(v) = v[15:0]` (R16). -/
def lo16 (v : Word) : Half := v.extractLsb' 0 16

/-- `hi16(v) = v[31:16]` (R16). -/
def hi16 (v : Word) : Half := v.extractLsb' 16 16

/-- `pack(a, b) = (b << 16) | a` (R16). -/
def pack (a b : Half) : Word := (zextHalf b <<< 16) ||| zextHalf a

/-- Both halves are below `M` (R17). -/
def canonical (v : Word) : Bool := decide ((lo16 v).toNat < Config.M) && decide ((hi16 v).toNat < Config.M)

/-- `be32(v)`: the four bytes of a value, most significant first (R28). -/
def be32 (v : Word) : List Byte :=
  [v.extractLsb' 24 8, v.extractLsb' 16 8, v.extractLsb' 8 8, v.extractLsb' 0 8]

/-- `v mod M`, the true remainder of the 32-bit value (spec/41_data_commands.md R52). -/
def modM (v : Word) : Word := BitVec.ofNat 32 (v.toNat % Config.M)

end Sys2Proof.Machine
end

