-- ==== Sys2Proof/Machine/Ops.lean ====
section
/-! DEFINITION. The named operations over the registers and the ports that the commands share, the reset event and the
taking of the one exception. The engine has no memory (spec/20_memory.md R25), so there is no operation over one. -/

namespace Sys2Proof.Machine

/-- Write the three data registers. -/
def State.withSums (s : State) (a b : Word) (n : Count) : State := { s with A := a, B := b, CNT := n }

/-- Append output events, in the order they are issued (spec/20_memory.md R32). -/
def State.putOut (s : State) (es : List OutEvent) : State := { s with trace := s.trace ++ es }

/-- What the host presents from here on. -/
def State.withPending (s : State) (p : List Stimulus) : State := { s with pending := p }

/-- Load the identity, `a = 1`, `b = 0`, at the start of a block (spec/40_control_commands.md R49;
spec/70_reset_and_hazards.md R86). -/
def loadIdentity (s : State) : State := s.withSums 0x00000001#32 0x00000000#32 0#13

/-- Unpack a value into the accumulators as it stands, at the start of a block (spec/40_control_commands.md R50). -/
def loadHalves (p : Word) (s : State) : State := s.withSums (zextHalf (lo16 p)) (zextHalf (hi16 p)) 0#13

/-- `reduce()` (spec/41_data_commands.md R52). -/
def reduce (s : State) : State := s.withSums (modM s.A) (modM s.B) 0#13

/-- The additions and the count of BYTE: `A` first, then `B` with the new `A`, both on 32-bit adders
(spec/41_data_commands.md R51; on the widths: DEDUCED, log entry 7, and DESIGN CHOICE, log entry 8). -/
def absorb (x : Byte) (s : State) : State :=
  s.withSums (s.A + zextByte x) (s.B + (s.A + zextByte x)) (s.CNT + 1#13)

/-- The block guard: a reduction when the count has reached `NMAX` (spec/41_data_commands.md R53). -/
def blockGuard (s : State) : State := if s.CNT.toNat = Config.NMAX then reduce s else s

/-- `(B[15:0] << 16) | A[15:0]` (spec/42_output_commands.md R59). -/
def packed (s : State) : Word := pack (lo16 s.A) (lo16 s.B)

/-- `Out.RES` of the packed value (spec/42_output_commands.md R59). -/
def putRes (s : State) : State := s.putOut [.res (packed s)]

/-- Four `Out.BYTE` events, the packed value most significant byte first (spec/42_output_commands.md R60). -/
def putBytes (s : State) : State := s.putOut ((be32 (packed s)).map .byte)

/-- Taking `IllegalCommand`: `ERR <- 1` and nothing else; nothing is saved, nothing is put out, there is no vector
(spec/60_exceptions.md R78). There is no return from it (R80): only `resetEngine` leaves the faulted condition. -/
def takeIllegalCommand (s : State) : State := s.withErr true

/-- The reset event: all four registers, whatever they held, and nothing put out (spec/70_reset_and_hazards.md R86). What
the host has still to present and what has been put out are not the engine's (DEDUCED, log entry 4). -/
def resetEngine (s : State) : State := (loadIdentity s).withErr false

end Sys2Proof.Machine
end

