-- ==== Sys2Proof/Machine/Control.lean ====
section
/-! DEFINITION. The control commands NOP, INIT, SEED (spec/40_control_commands.md). Each is behind the fault gate (R47). -/

namespace Sys2Proof.Machine

/-- NOP: no register changes and no output (R48). -/
def execNop (s : State) : Host.Outcome State Fault Refusal := .next (gate (fun s => s) s)

/-- INIT: load the identity (R49). -/
def execInit (s : State) : Host.Outcome State Fault Refusal := .next (gate loadIdentity s)

/-- SEED: unpack `p`, for every `p` (R50). -/
def execSeed (p : Word) (s : State) : Host.Outcome State Fault Refusal := .next (gate (loadHalves p) s)

end Sys2Proof.Machine
end

