-- ==== Sys2Proof/Machine/Data.lean ====
section
/-! DEFINITION. The data commands BYTE and FLUSH (spec/41_data_commands.md). Each is behind the fault gate (R47). -/

namespace Sys2Proof.Machine

/-- BYTE: accumulate and count, then the block guard in the same step (R51, R53). -/
def execByte (x : Byte) (s : State) : Host.Outcome State Fault Refusal :=
  .next (gate (fun s => blockGuard (absorb x s)) s)

/-- FLUSH: `reduce()` at once (R54). -/
def execFlush (s : State) : Host.Outcome State Fault Refusal := .next (gate reduce s)

end Sys2Proof.Machine
end

