-- ==== Sys2Proof/Machine/Output.lean ====
section
/-! DEFINITION. The output commands READ and EMIT (spec/42_output_commands.md). Each is behind the fault gate (R47). -/

namespace Sys2Proof.Machine

/-- READ: reduce, pack, put the value on `res` (R59). -/
def execRead (s : State) : Host.Outcome State Fault Refusal := .next (gate (fun s => putRes (reduce s)) s)

/-- EMIT: reduce, pack, put the four bytes on `obyte` (R60). -/
def execEmit (s : State) : Host.Outcome State Fault Refusal := .next (gate (fun s => putBytes (reduce s)) s)

end Sys2Proof.Machine
end

