-- ==== Sys2Proof/Machine/Dispatch.lean ====
section
/-! DEFINITION. One arm per command (spec/40_control_commands.md R47). -/

namespace Sys2Proof.Machine

/-- The meaning of a decoded command. -/
def exec (i : Instr) (s : State) : Host.Outcome State Fault Refusal :=
  match i with
  | .nop => Sys2Proof.Machine.execNop s
  | .init => Sys2Proof.Machine.execInit s
  | .seed p => Sys2Proof.Machine.execSeed p s
  | .byte x => Sys2Proof.Machine.execByte x s
  | .flush => Sys2Proof.Machine.execFlush s
  | .read => Sys2Proof.Machine.execRead s
  | .emit => Sys2Proof.Machine.execEmit s

end Sys2Proof.Machine
end

