-- ==== Sys2Proof/Machine/Engine.lean ====
section
/-! DEFINITION. What the engine does with a word on `cmd` (spec/40_control_commands.md R47) and with what the host presents
next. `Step.lean` only calls these. -/

namespace Sys2Proof.Machine

/-- The step function of R47 on one word: the fault gate before any decoding (spec/60_exceptions.md R77), then the
decoded command, or the exception of an illegal word (R74). -/
def acceptWord (cw : CommandWord) (s : State) : Host.Outcome State Fault Refusal :=
  if s.ERR then .next s
  else
    match decode cw with
    | .ok i => exec i s
    | .error _ => .next (takeIllegalCommand s)

/-- One step on what the host presents next (spec/20_memory.md R32). A reset is never discarded; a word presented with a
reset is what the host presents next, after it (spec/60_exceptions.md R77; DEDUCED, log entry 4). Where the host presents nothing,
nothing happens (DESIGN CHOICE, log entry 2). -/
def takeStimulus (s : State) : Host.Outcome State Fault Refusal :=
  match s.pending with
  | [] => .next s
  | .command cw :: rest => acceptWord cw (s.withPending rest)
  | .reset :: rest => .next (resetEngine (s.withPending rest))
  | .resetAndCommand cw :: rest => .next (resetEngine (s.withPending (.command cw :: rest)))

/-- The host presents this word next, before whatever it had still to present. -/
def presentWord (cw : CommandWord) (s : State) : State := s.withPending (.command cw :: s.pending)

/-- The host is given a program to present, after whatever it had still to present (spec/30_encoding.md R46). -/
def presentProgram (p : List Stimulus) (s : State) : State := s.withPending (s.pending ++ p)

end Sys2Proof.Machine
end

