-- ==== Sys2Proof/Machine/Step.lean ====
section
/-! DEFINITION. One step of the machine, and the placing of a word where the next step takes it. -/

namespace Sys2Proof.Machine

/-- One atomic step: one command word or one reset event, complete (spec/00_scope.md R9). -/
def step (s : State) : Host.Outcome State Fault Refusal := takeStimulus s

/-- `s` with the instruction whose bits are `w` presented next on `cmd`: the engine has no program counter and fetches
nothing (spec/10_state.md R19), so this stands for the host issuing the word (DESIGN CHOICE, log entry 1). -/
def State.withFetchWord (s : State) (nbits w : Nat) : State := presentWord (tableWord nbits w) s

end Sys2Proof.Machine
end

