-- ==== Sys2Proof/Machine/Reference.lean ====
section
/-! DEFINITION. What the state means, and the functions the engine computes: the abstraction `val` (spec/10_state.md R23),
the per-byte reference `adler` (spec/41_data_commands.md R56), `Calculate`, `Update` and their command sequences
(spec/43_composite_operations.md R63, R64, R66; spec/30_encoding.md R45). -/

namespace Sys2Proof.Machine

/-- `pack(a mod M, b mod M)` of two natural numbers. -/
def packMod (a b : Nat) : Word := pack (BitVec.ofNat 16 (a % Config.M)) (BitVec.ofNat 16 (b % Config.M))

/-- `val(A, B) = pack(A mod M, B mod M)`, the value of a state (R23). -/
def val (s : State) : Word := packMod s.A.toNat s.B.toNat

/-- One step of the document's recurrences: `a = (a + x) mod M`, then `b = (b + a) mod M` (R56). -/
def adlerStep (ab : Nat × Nat) (x : Byte) : Nat × Nat :=
  ((ab.1 + x.toNat) % Config.M, (ab.2 + (ab.1 + x.toNat) % Config.M) % Config.M)

/-- The halves after all of `S`, reducing after every byte (R56). -/
def adlerHalves (a0 b0 : Nat) (S : List Byte) : Nat × Nat :=
  S.foldl adlerStep (a0 % Config.M, b0 % Config.M)

/-- `adler(a0, b0, S)` (R56). -/
def adler (a0 b0 : Nat) (S : List Byte) : Word :=
  pack (BitVec.ofNat 16 (adlerHalves a0 b0 S).1) (BitVec.ofNat 16 (adlerHalves a0 b0 S).2)

/-- `Calculate(S) = adler(1, 0, S)` (R63). -/
def calculate (S : List Byte) : Word := adler 1 0 S

/-- `Update(p, S) = adler(lo16(p), hi16(p), S)` (R64). -/
def update (p : Word) (S : List Byte) : Word := adler (lo16 p).toNat (hi16 p).toNat S

/-- The canonical value congruent to `p` (R72). -/
def canonicalOf (p : Word) : Word := packMod (lo16 p).toNat (hi16 p).toNat

/-- `CHUNK S` as commands (R45). -/
def chunkCommands (S : List Byte) : List Instr := S.map .byte

/-- `CALC S` as commands (R45). -/
def calcCommands (S : List Byte) : List Instr := .init :: (chunkCommands S ++ [.read])

/-- `UPDATE p, S` as commands (R45). -/
def updateCommands (p : Word) (S : List Byte) : List Instr := .seed p :: (chunkCommands S ++ [.read])

/-- `CONT S` as commands (R45). -/
def contCommands (S : List Byte) : List Instr := chunkCommands S ++ [.read]

/-- `FOOTER` as a command (R45). -/
def footerCommands : List Instr := [.emit]

/-- The words of a sequence of commands, as the host presents them (R46). -/
def stimuliOf (is : List Instr) : List Stimulus := is.map fun i => .command (encode i)

/-- The bytes a sequence of commands absorbs, in order (spec/20_memory.md R27). -/
def bytesOf : List Instr → List Byte
  | [] => []
  | .byte x :: is => x :: bytesOf is
  | _ :: is => bytesOf is

/-- The command does not start a stream: every command but INIT and SEED (R23, R56). -/
def continuesStream : Instr → Bool
  | .nop => true
  | .init => false
  | .seed _ => false
  | .byte _ => true
  | .flush => true
  | .read => true
  | .emit => true

end Sys2Proof.Machine
end

