-- ==== Sys2Proof/Machine/Assembly.lean ====
section
/-! DEFINITION. The assembler (spec/30_encoding.md R44, R45, R46): from a line of text to a source line, from a source line
to the words the host presents, and back from a word to its listing. Text is a list of characters. What R44 and R45 leave
open of the text is fixed in log entry 12 (DESIGN CHOICE). -/

namespace Sys2Proof.Machine

/-- Why the assembler refuses a line. -/
inductive AsmError where
  /-- an operand outside its range; it is never truncated (R44) -/
  | operandOutOfRange
  /-- no command, directive or pseudo-command has this mnemonic -/
  | unknownMnemonic
  /-- a missing, superfluous or ill-written operand -/
  | badOperand
  deriving DecidableEq, Repr

/-- The operand of CHUNK and its like as bytes. -/
def toBytes (S : List Nat) : List Byte := S.map (BitVec.ofNat 8)

/-- The words of a source line whose operands are in range (R44, R45). -/
def wordsOf : SourceLine → List CommandWord
  | .nop => [encode .nop]
  | .init => [encode .init]
  | .seed p => [encode (.seed (BitVec.ofNat 32 p))]
  | .byte x => [encode (.byte (BitVec.ofNat 8 x))]
  | .flush => [encode .flush]
  | .read => [encode .read]
  | .emit => [encode .emit]
  | .word w => [BitVec.ofNat 40 w]
  | .chunk S => (chunkCommands (toBytes S)).map encode
  | .calc S => (calcCommands (toBytes S)).map encode
  | .update p S => (updateCommands (BitVec.ofNat 32 p) (toBytes S)).map encode
  | .cont S => (contCommands (toBytes S)).map encode
  | .footer => footerCommands.map encode

/-- Assemble a source line, refusing an operand outside its range (R44). -/
def assemble (l : SourceLine) : Except AsmError (List CommandWord) :=
  if l.wellFormed then .ok (wordsOf l) else .error .operandOutOfRange

/-- The value of a decimal digit. -/
def decimalDigit (c : Char) : Option Nat :=
  if 48 ≤ c.toNat ∧ c.toNat ≤ 57 then some (c.toNat - 48) else none

/-- The value of a hexadecimal digit, in capitals or not. -/
def hexDigit (c : Char) : Option Nat :=
  if 48 ≤ c.toNat ∧ c.toNat ≤ 57 then some (c.toNat - 48)
  else if 65 ≤ c.toNat ∧ c.toNat ≤ 70 then some (c.toNat - 55)
  else if 97 ≤ c.toNat ∧ c.toNat ≤ 102 then some (c.toNat - 87)
  else none

/-- Read digits to the end of the text, most significant first. -/
def readDigits (base : Nat) (digit : Char → Option Nat) (acc : Nat) : List Char → Option Nat
  | [] => some acc
  | c :: cs =>
    match digit c with
    | some d => readDigits base digit (acc * base + d) cs
    | none => none

/-- A number: `0x` and hexadecimal digits, or decimal digits, as R44 gives it for SEED and BYTE. That WORD, the `p` of UPDATE
and the lists of R45 take these two notations and no other (no `0b`) is the model's choice (DESIGN CHOICE, log entry 12). -/
def readNumber : List Char → Option Nat
  | [] => none
  | '0' :: 'x' :: [] => none
  | '0' :: 'x' :: c :: cs => readDigits 16 hexDigit 0 (c :: cs)
  | c :: cs => readDigits 10 decimalDigit 0 (c :: cs)

/-- Cut a text at every occurrence of a character. -/
def cutAt (sep : Char) : List Char → List (List Char)
  | [] => [[]]
  | c :: cs =>
    match cutAt sep cs with
    | [] => [[c]]
    | piece :: pieces => if c = sep then [] :: piece :: pieces else (c :: piece) :: pieces

/-- The text before the first occurrence of a character, and the text after it if there is one. -/
def cutOnce (sep : Char) : List Char → List Char × Option (List Char)
  | [] => ([], none)
  | c :: cs =>
    if c = sep then ([], some cs)
    else (c :: (cutOnce sep cs).1, (cutOnce sep cs).2)

/-- The line up to a `;` that does not stand inside a string (R44). -/
def dropComment (inString : Bool) : List Char → List Char
  | [] => []
  | c :: cs =>
    if c = ';' ∧ inString = false then []
    else c :: dropComment (if c = '"' then !inString else inString) cs

/-- A text without the spaces at its start. -/
def dropSpaces (cs : List Char) : List Char := cs.dropWhile (· == ' ')

/-- A text without the spaces at its two ends. -/
def trim (cs : List Char) : List Char := (dropSpaces (dropSpaces cs).reverse).reverse

/-- The rest of a string after its opening quote: ASCII characters up to a quote that ends the text (R45). -/
def readString : List Char → Option (List Nat)
  | [] => none
  | ['"'] => some []
  | '"' :: _ :: _ => none
  | c :: cs =>
    match readString cs with
    | some S => if c.toNat < 128 then some (c.toNat :: S) else none
    | none => none

/-- Numbers, one a piece, spaces around them allowed. -/
def readNumbers : List (List Char) → Option (List Nat)
  | [] => some []
  | p :: ps =>
    match readNumber (trim p), readNumbers ps with
    | some n, some S => some (n :: S)
    | _, _ => none

/-- The text of a list up to its closing bracket, which ends the text. -/
def readList (cs : List Char) : Option (List Nat) :=
  if cs.getLast? = some ']' then
    if trim cs.dropLast = [] then some [] else readNumbers (cutAt ',' cs.dropLast)
  else none

/-- A byte sequence: a string in double quotes, or a list of numbers in square brackets (R45). -/
def readBytes : List Char → Option (List Nat)
  | '"' :: cs => readString cs
  | '[' :: cs => readList cs
  | _ => none

/-- A line of a form without operand. -/
def plainLine (l : SourceLine) : Option (List Char) → Except AsmError SourceLine
  | none => .ok l
  | some _ => .error .badOperand

/-- A line with one number as its operand. -/
def numberLine (f : Nat → SourceLine) : Option (List Char) → Except AsmError SourceLine
  | none => .error .badOperand
  | some cs =>
    match readNumber cs with
    | some n => .ok (f n)
    | none => .error .badOperand

/-- A line with one byte sequence as its operand. -/
def bytesLine (f : List Nat → SourceLine) : Option (List Char) → Except AsmError SourceLine
  | none => .error .badOperand
  | some cs =>
    match readBytes cs with
    | some S => .ok (f S)
    | none => .error .badOperand

/-- The line `UPDATE p, S`. -/
def updateLine : Option (List Char) → Except AsmError SourceLine
  | none => .error .badOperand
  | some cs =>
    match cutOnce ',' cs with
    | (_, none) => .error .badOperand
    | (p, some S) =>
      match readNumber p, readBytes (dropSpaces S) with
      | some n, some bytes => .ok (.update n bytes)
      | _, _ => .error .badOperand

/-- The line of a mnemonic and what stands after the one space behind it (R44, R45). R44 says of the operand of WORD only
that it is a 40-bit number; that it is written as those of SEED and BYTE are is the model's choice (DESIGN CHOICE, log
entry 12). -/
def parseCommand (mnemonic : List Char) (operand : Option (List Char)) : Except AsmError SourceLine :=
  if mnemonic = "NOP".toList then plainLine .nop operand
  else if mnemonic = "INIT".toList then plainLine .init operand
  else if mnemonic = "SEED".toList then numberLine .seed operand
  else if mnemonic = "BYTE".toList then numberLine .byte operand
  else if mnemonic = "FLUSH".toList then plainLine .flush operand
  else if mnemonic = "READ".toList then plainLine .read operand
  else if mnemonic = "EMIT".toList then plainLine .emit operand
  else if mnemonic = "WORD".toList then numberLine .word operand
  else if mnemonic = "CHUNK".toList then bytesLine .chunk operand
  else if mnemonic = "CALC".toList then bytesLine .calc operand
  else if mnemonic = "UPDATE".toList then updateLine operand
  else if mnemonic = "CONT".toList then bytesLine .cont operand
  else if mnemonic = "FOOTER".toList then plainLine .footer operand
  else .error .unknownMnemonic

/-- One line of text: nothing but space and comment, or one command, directive or pseudo-command (R44). -/
def parseLine (line : List Char) : Except AsmError (Option SourceLine) :=
  match trim (dropComment false line) with
  | [] => .ok none
  | text =>
    match parseCommand (cutOnce ' ' text).1 (cutOnce ' ' text).2 with
    | .ok l => .ok (some l)
    | .error e => .error e

/-- The words of one line of text. -/
def assembleLine (line : List Char) : Except AsmError (List CommandWord) :=
  match parseLine line with
  | .ok none => .ok []
  | .ok (some l) => assemble l
  | .error e => .error e

/-- The words of several lines; the first refused line refuses the whole. -/
def assembleLines : List (List Char) → Except AsmError (List CommandWord)
  | [] => .ok []
  | line :: lines =>
    match assembleLine line, assembleLines lines with
    | .ok ws, .ok vs => .ok (ws ++ vs)
    | .error e, _ => .error e
    | _, .error e => .error e

/-- A program text, one command a line, as what the host presents (R44, R46). -/
def assembleText (text : List Char) : Except AsmError (List Stimulus) :=
  match assembleLines (cutAt '\n' text) with
  | .ok ws => .ok (ws.map .command)
  | .error e => .error e

/-- The character of a hexadecimal digit. -/
def hexChar (d : Nat) : Char := if d < 10 then Char.ofNat (48 + d) else Char.ofNat (55 + d)

/-- The last `k` hexadecimal digits of a number, most significant first. -/
def hexText : Nat → Nat → List Char
  | 0, _ => []
  | k + 1, n => hexText k (n / 16) ++ [hexChar (n % 16)]

/-- A command in the form of R44. -/
def renderInstr : Instr → List Char
  | .nop => "NOP".toList
  | .init => "INIT".toList
  | .seed p => "SEED 0x".toList ++ hexText 8 p.toNat
  | .byte x => "BYTE 0x".toList ++ hexText 2 x.toNat
  | .flush => "FLUSH".toList
  | .read => "READ".toList
  | .emit => "EMIT".toList

/-- A word in the form of R44: its command, or the directive WORD for an illegal word. -/
def renderWord (cw : CommandWord) : List Char :=
  match decode cw with
  | .ok i => renderInstr i
  | .error _ => "WORD 0x".toList ++ hexText 10 cw.toNat

/-- A line of a listing: the word as ten hexadecimal digits, `op` first, then the textual form (R36, R46). -/
def listingLine (cw : CommandWord) : List Char := "0x".toList ++ hexText 10 cw.toNat ++ [' '] ++ renderWord cw

end Sys2Proof.Machine
end

