-- ==== Sys2Proof/Machine/System.lean ====
section
/-! DEFINITION. Several engines side by side (spec/60_exceptions.md R85): `nEng` instances, each with its own registers and
ports, sharing nothing. Which engine steps next is not ordered (spec/20_memory.md R33), so it is an argument here; the
machine behind the host's interface is one instance (DESIGN CHOICE, log entry 10). -/

namespace Sys2Proof.Machine

/-- `N_ENG = nEng` engine instances. -/
structure System (nEng : Nat) where
  engines : Vector State nEng
  deriving DecidableEq, Repr

/-- Every engine at its own reset (R85). -/
def systemReset (nEng : Nat) : System nEng := { engines := Vector.replicate nEng State.reset }

/-- The system with engine `k` in state `t`. -/
def replaceEngine {nEng : Nat} (y : System nEng) (k : Fin nEng) (t : State) : System nEng :=
  { engines := y.engines.set k t }

/-- One step of engine `k`; the other engines do not see it. -/
def stepEngine {nEng : Nat} (k : Fin nEng) (y : System nEng) : Host.Outcome (System nEng) Fault Refusal :=
  match step y.engines[k] with
  | .next t => .next (replaceEngine y k t)
  | .fault r => .fault r
  | .refused r => .refused r

/-- The steps of a schedule, one engine after another. -/
def runSchedule {nEng : Nat} : List (Fin nEng) → System nEng → Host.Outcome (System nEng) Fault Refusal
  | [], y => .next y
  | k :: ks, y =>
    match stepEngine k y with
    | .next z => runSchedule ks z
    | .fault r => .fault r
    | .refused r => .refused r

end Sys2Proof.Machine
end

