-- ==== Sys2Proof/Safety.lean ====
section
/-! DEFINITION. What counts as a safe state and a safe run: the bounds that keep the adders from carrying out
(spec/10_state.md R22), the three conditions of the engine (spec/41_data_commands.md R57), and a successful end
(spec/40_control_commands.md R47). -/

namespace Sys2Proof.Machine

/-- The bound of R22 on `B` after `n` bytes of a block, from any seed. -/
@[irreducible] def looseBound (n : Nat) : Nat := 65535 * (n + 1) + 255 * n * (n + 1) / 2

/-- The tighter bound of R22 on `B` after `n` bytes of a block that started reduced. -/
@[irreducible] def tightBound (n : Nat) : Nat := 65520 * (n + 1) + 255 * n * (n + 1) / 2

/-- The bounds of R22 that hold in every reachable state, between steps. -/
abbrev WithinBounds (s : State) : Prop :=
  s.CNT.toNat ≤ 5551 ∧ s.A.toNat ≤ 65535 + 255 * s.CNT.toNat ∧ s.B.toNat ≤ looseBound s.CNT.toNat

/-- The tighter bounds of R22, which hold when the last command that cleared `CNT` was not a SEED with a non-canonical
operand. -/
abbrev WithinTightBounds (s : State) : Prop :=
  s.CNT.toNat ≤ 5551 ∧ s.A.toNat ≤ 65520 + 255 * s.CNT.toNat ∧ s.B.toNat ≤ tightBound s.CNT.toNat

/-- The named conditions of the engine (R57). -/
inductive Condition where
  | start
  | run
  | fault
  deriving DecidableEq, Repr

/-- The condition of a state, decided by `ERR` and `CNT` (R57). R57 names RUN for `CNT` from 1 to 5551 only; that an
unfaulted state with `CNT` from 5552 to 8191, which no run from reset reaches, is called RUN too is the model's choice
(DESIGN CHOICE, log entry 15). -/
def condition (s : State) : Condition :=
  if s.ERR then .fault else if s.CNT = 0#13 then .start else .run

/-- A finished, successful run: the host has nothing more to present and no fault was taken (R47: a faulted state is never
final; spec/30_encoding.md R46: a program ends when the host issues nothing more). -/
def successful (s : State) : Bool := !s.ERR && s.pending.isEmpty

/-- The host presents a SEED whose operand is not canonical next. -/
def seedsNonCanonical (s : State) : Bool :=
  match s.pending with
  | .command cw :: _ =>
    match decode cw with
    | .ok (.seed p) => !canonical p
    | _ => false
  | _ => false

end Sys2Proof.Machine
end

