-- ==== Sys2Proof/Certificates/Slice0/Obligations.lean ====
section
/-! DEFINITION. The statements for the provers, family by family. Each docstring names the rule of spec/ it formalises. The
engine has no memory (R25), so a frame speaks of the four registers, the host's queue and the output trace. -/

open Sys2Proof Sys2Proof.Machine

/-! ## Encoding -/

/-- Words written out from the spec's encoding (R37, R39) decode to the command they stand for, and one word of each case of
R41 decodes to none. Which name the decoder gives to a case is the model's choice (log entry 6): the spec has one `Illegal`
(R40). -/
def Obligations.SampleWordsDecode : Prop :=
  decode 0x0000000000#40 = .ok .nop ∧
  decode 0x0100000000#40 = .ok .init ∧
  decode 0x02024D0127#40 = .ok (.seed 0x024D0127#32) ∧
  decode 0x0300000061#40 = .ok (.byte 0x61#8) ∧
  decode 0x03000000FF#40 = .ok (.byte 0xFF#8) ∧
  decode 0x0400000000#40 = .ok .flush ∧
  decode 0x0500000000#40 = .ok .read ∧
  decode 0x0600000000#40 = .ok .emit ∧
  decode 0x0300000100#40 = .error .reservedBitsOfByte ∧
  decode 0x0000000001#40 = .error .operandOfZFormat ∧
  decode 0x0700000000#40 = .error .undefinedOpcode

/-- Every command, with every operand its encoding admits, decodes from its own word (R37, R38, R39). -/
def Obligations.DecodeOfEncode : Prop :=
  ∀ i : Instr, decode (encode i) = .ok i

/-- No two words mean one command: a word that decodes is the word of what it decodes to (R40; decision D8). -/
def Obligations.EncodeOfDecode : Prop :=
  ∀ (cw : CommandWord) (i : Instr), decode cw = .ok i → encode i = cw

/-- R39: a word encodes the command of a row exactly when `(cw & mask) = match`; the rows are mutually exclusive; the
opcodes 0x07 to 0xFF are undefined. -/
def Obligations.TableRowsDecideDecoding : Prop :=
  (∀ r ∈ opcodeTable, ∀ cw : CommandWord,
    cw &&& r.mask = r.pattern ↔ ∃ i, decode cw = .ok i ∧ i.mnemonic = r.mnemonic) ∧
  (∀ r ∈ opcodeTable, ∀ r' ∈ opcodeTable, ∀ cw : CommandWord,
    cw &&& r.mask = r.pattern → cw &&& r'.mask = r'.pattern → r = r') ∧
  (∀ cw : CommandWord, 0x0700000000 ≤ cw.toNat → ∃ e, decode cw = .error e)

/-- R41: which words are illegal, read off the word as a number, and what an illegal word does with `ERR = 0`. -/
def Obligations.IllegalWordsAreTheThreeCases : Prop :=
  ∀ cw : CommandWord,
    ((∃ e, decode cw = .error e) ↔
      (7 ≤ cw.toNat / 2 ^ 32) ∨
      (cw.toNat / 2 ^ 32 ∈ [0, 1, 4, 5, 6] ∧ cw.toNat % 2 ^ 32 ≠ 0) ∨
      (cw.toNat / 2 ^ 32 = 3 ∧ cw.toNat % 2 ^ 32 / 2 ^ 8 ≠ 0)) ∧
    (∀ s : State, s.ERR = false → (∃ e, decode cw = .error e) → acceptWord cw s = .next { s with ERR := true })

/-- R40: of the `2^40` words, `5 + 2^32 + 2^8` decode to a command. -/
def Obligations.CountOfLegalWords : Prop :=
  Nat.card { cw : CommandWord // ∃ i, decode cw = .ok i } = 4294967557

/-! ## The step, the fault gate, the fault and the reset -/

/-- A step on a word that decodes is `exec` of the decoded command, on the state in which the host has that word no longer
to present; the same for a word placed by `withFetchWord`. In every state, faulted ones too (R47). -/
def Obligations.StepRunsDecodedCommand : Prop :=
  (∀ (s : State) (cw : CommandWord) (rest : List Stimulus) (i : Instr),
    s.pending = .command cw :: rest → decode cw = .ok i → step s = exec i { s with pending := rest }) ∧
  (∀ (s : State) (nbits w : Nat) (i : Instr),
    decodeTableWord nbits w = some i → step (s.withFetchWord nbits w) = exec i s)

/-- R47, R77: while `ERR = 1` every command and every word, legal or not, is discarded. -/
def Obligations.FaultGateDiscardsEveryWord : Prop :=
  ∀ s : State, s.ERR = true →
    (∀ i : Instr, exec i s = .next s) ∧
    (∀ (cw : CommandWord) (rest : List Stimulus),
      s.pending = .command cw :: rest → step s = .next { s with pending := rest })

/-- R47: the step function is total; no run of any length ends in a fault or a refusal. -/
def Obligations.EveryRunAnswersNext : Prop :=
  ∀ (k : Nat) (s : State), ∃ t : State, core.run k s = .next t

/-- The model's own choice (log entry 2): where the host presents nothing, a step changes nothing. -/
def Obligations.IdleStepChangesNothing : Prop :=
  ∀ s : State, s.pending = [] → step s = .next s

/-- R78: taking `IllegalCommand` writes `ERR` and nothing else; from then on the engine discards every word. -/
def Obligations.IllegalCommandEntry : Prop :=
  ∀ (s : State) (cw : CommandWord) (rest : List Stimulus) (e : IllegalWord),
    s.ERR = false → s.pending = .command cw :: rest → decode cw = .error e →
    ∃ t, step s = .next t ∧ t = { s with ERR := true, pending := rest } ∧
      (∀ i : Instr, exec i t = .next t) ∧
      (∀ (cw' : CommandWord) (rest' : List Stimulus),
        rest = .command cw' :: rest' → step t = .next { t with pending := rest' })

/-- R79, R80: the registers of a faulted engine stay as they are under any words, and nothing is put out. -/
def Obligations.FaultedEngineIsFrozen : Prop :=
  ∀ (s : State) (cws : List CommandWord) (rest : List Stimulus),
    s.ERR = true → s.pending = cws.map .command ++ rest →
    core.run cws.length s = .next { s with pending := rest }

/-- R86: the reset event loads the identity, clears `CNT` and `ERR`, puts nothing out, in every state; and it is the only
event that clears `ERR`. The machine right after reset holds the same registers. -/
def Obligations.ResetEvent : Prop :=
  (∀ (s : State) (rest : List Stimulus), s.pending = .reset :: rest →
    ∃ t, step s = .next t ∧ t.A = 0x00000001#32 ∧ t.B = 0x00000000#32 ∧ t.CNT = 0#13 ∧ t.ERR = false ∧
      t.trace = s.trace) ∧
  (∀ s t : State, step s = .next t → s.ERR = true → t.ERR = false →
    ∃ rest, s.pending = .reset :: rest ∨ ∃ cw, s.pending = .resetAndCommand cw :: rest) ∧
  (State.reset.A = 0x00000001#32 ∧ State.reset.B = 0x00000000#32 ∧ State.reset.CNT = 0#13 ∧ State.reset.ERR = false)

/-- R77 in the model's form (the model's reading, log entry 4): a reset leaves what the host presents after it as it is; of
a reset and a word presented together the reset comes first, and the word is accepted on the reset state, one step later. -/
def Obligations.ResetIsOrderedBeforeTheWord : Prop :=
  (∀ (s : State) (rest : List Stimulus), s.pending = .reset :: rest →
    step s = .next { State.reset with pending := rest, trace := s.trace }) ∧
  (∀ (s : State) (cw : CommandWord) (rest : List Stimulus), s.pending = .resetAndCommand cw :: rest →
    ∃ t, step s = .next t ∧
      t = { State.reset with pending := .command cw :: rest, trace := s.trace } ∧
      step t = acceptWord cw { State.reset with pending := rest, trace := s.trace })

/-- R15, R81: `ERR` is set by an illegal word and by nothing else, cleared by a reset and by nothing else, and the `err`
level equals it. -/
def Obligations.ErrSetByIllegalWordOnly : Prop :=
  ∀ s t : State, step s = .next t →
    (s.ERR = false → (t.ERR = true ↔ ∃ cw rest e, s.pending = .command cw :: rest ∧ decode cw = .error e)) ∧
    (s.ERR = true → (t.ERR = false ↔
      ∃ rest, s.pending = .reset :: rest ∨ ∃ cw, s.pending = .resetAndCommand cw :: rest)) ∧
    (errLevel t = if t.ERR then 1#1 else 0#1)

/-- R47, R80: a faulted state is never the final state of a successful run: with words only to come, legal or not, the fault
stays and the run does not end successfully. -/
def Obligations.FaultedRunNeverSucceeds : Prop :=
  ∀ (k : Nat) (s t : State), s.ERR = true → (∀ x ∈ s.pending, ∃ cw, x = .command cw) →
    core.run k s = .next t → t.ERR = true ∧ successful t = false

/-- R82, R88: from any state, faulted or not, a reset and then `CALC S` puts out `Calculate(S)`. -/
def Obligations.RecoveryByReset : Prop :=
  ∀ (s : State) (S : List Byte) (rest : List Stimulus),
    s.pending = .reset :: (stimuliOf (calcCommands S) ++ rest) →
    ∃ t : State, core.run (S.length + 3) s = .next t ∧ t.ERR = false ∧ t.pending = rest ∧
      t.trace = s.trace ++ [.res (calculate S)]

/-! ## Control commands -/

/-- R48: NOP changes nothing. -/
def Obligations.NopResult : Prop :=
  ∀ s : State, exec .nop s = .next s

/-- R49: INIT loads the identity and restarts the block count; under `ERR = 1` it is discarded; it is equal in effect to
`SEED 0x00000001`. -/
def Obligations.InitResult : Prop :=
  ∀ s : State,
    (s.ERR = false → exec .init s = .next { s with A := 0x00000001#32, B := 0x00000000#32, CNT := 0#13 }) ∧
    (s.ERR = true → exec .init s = .next s) ∧
    exec .init s = exec (.seed 0x00000001#32) s

/-- R50: SEED splits its operand into the accumulators, for every operand, and restarts the block count; seeding the value
READ has put out restores exactly the state READ left. -/
def Obligations.SeedResult : Prop :=
  (∀ (p : Word) (s : State), s.ERR = false →
    exec (.seed p) s = .next { s with A := BitVec.ofNat 32 (p.toNat % 2 ^ 16),
                                      B := BitVec.ofNat 32 (p.toNat / 2 ^ 16), CNT := 0#13 }) ∧
  (∀ s : State, s.ERR = false → ∃ t v, exec .read s = .next t ∧ t.trace = s.trace ++ [.res v] ∧
    exec (.seed v) t = .next t)

/-! ## Data commands -/

/-- R51: BYTE adds the byte into `A`, the new `A` into `B`, counts, and reduces both in the same step when the count
reaches 5552; over the naturals, in every state within the bounds of R22 (which every step keeps: BoundsKeptByEveryStep). -/
def Obligations.ByteResult : Prop :=
  ∀ (x : Byte) (s : State), WithinBounds s → s.ERR = false →
    exec (.byte x) s = .next
      (if s.CNT.toNat + 1 = 5552 then
        { s with A := BitVec.ofNat 32 ((s.A.toNat + x.toNat) % 65521),
                 B := BitVec.ofNat 32 ((s.B.toNat + (s.A.toNat + x.toNat)) % 65521), CNT := 0#13 }
      else
        { s with A := BitVec.ofNat 32 (s.A.toNat + x.toNat),
                 B := BitVec.ofNat 32 (s.B.toNat + (s.A.toNat + x.toNat)), CNT := BitVec.ofNat 13 (s.CNT.toNat + 1) })

/-- BYTE in every unfaulted state, outside the bounds of R22 too, where it is the model's choice that the adders wrap modulo
`2^32` (log entry 8) and the count modulo `2^13` (log entry 7). -/
def Obligations.ByteInEveryState : Prop :=
  ∀ (x : Byte) (s : State), s.ERR = false →
    exec (.byte x) s = .next
      (if s.CNT + 1#13 = 5552#13 then
        { s with A := BitVec.ofNat 32 ((s.A + BitVec.ofNat 32 x.toNat).toNat % 65521),
                 B := BitVec.ofNat 32 ((s.B + (s.A + BitVec.ofNat 32 x.toNat)).toNat % 65521), CNT := 0#13 }
      else
        { s with A := s.A + BitVec.ofNat 32 x.toNat,
                 B := s.B + (s.A + BitVec.ofNat 32 x.toNat), CNT := s.CNT + 1#13 })

/-- R52, R54: FLUSH reduces both accumulators modulo 65521 and restarts the block count; a second FLUSH changes nothing;
the value of the state is the same before and after. -/
def Obligations.FlushResult : Prop :=
  ∀ s : State, s.ERR = false →
    ∃ t, exec .flush s = .next t ∧
      t = { s with A := BitVec.ofNat 32 (s.A.toNat % 65521), B := BitVec.ofNat 32 (s.B.toNat % 65521), CNT := 0#13 } ∧
      t.A.toNat ≤ 65520 ∧ t.B.toNat ≤ 65520 ∧ exec .flush t = .next t ∧ val t = val s

/-- R57: the transitions between the conditions START, RUN and FAULT, from the states with `CNT` at most 5551, to which R57
gives a condition (outside them `condition` is the model's choice, log entry 15). -/
def Obligations.ConditionTransitions : Prop :=
  ∀ s t : State, s.CNT.toNat ≤ 5551 → step s = .next t →
    (∀ rest, s.pending = .reset :: rest → condition t = .start) ∧
    (∀ cw rest, s.pending = .command cw :: rest →
      (condition s = .fault → condition t = .fault ∧ t.trace = s.trace) ∧
      (condition s ≠ .fault →
        (decode cw = .ok .nop → condition t = condition s) ∧
        (∀ i, decode cw = .ok i → i = .init ∨ (∃ p, i = .seed p) ∨ i = .flush ∨ i = .read ∨ i = .emit →
          condition t = .start) ∧
        (∀ x, decode cw = .ok (.byte x) → s.CNT.toNat < 5551 → condition t = .run ∧ t.CNT = s.CNT + 1#13) ∧
        (∀ x, decode cw = .ok (.byte x) → s.CNT.toNat = 5551 → condition t = .start) ∧
        (∀ e, decode cw = .error e → condition t = .fault)))

/-- R58: with nothing but BYTE commands after the last clearing of `CNT`, the count after byte number `j` is `j mod 5552`,
and the accumulators are reduced at the multiples of 5552. -/
def Obligations.BlockPositions : Prop :=
  ∀ (s : State) (S : List Byte) (rest : List Stimulus),
    s.ERR = false → s.CNT = 0#13 → s.pending = stimuliOf (chunkCommands S) ++ rest →
    ∃ t : State, core.run S.length s = .next t ∧ t.pending = rest ∧ t.trace = s.trace ∧ t.ERR = false ∧
      t.CNT.toNat = S.length % 5552 ∧
      (S ≠ [] → S.length % 5552 = 0 → t.A.toNat < 65521 ∧ t.B.toNat < 65521)

/-! ## Output commands -/

/-- R59: READ reduces, packs `(b << 16) | a`, and puts the value, always canonical, on `res`; under the fault gate it puts
out nothing. -/
def Obligations.ReadResult : Prop :=
  ∀ s : State,
    (s.ERR = false → exec .read s = .next
      { s with A := BitVec.ofNat 32 (s.A.toNat % 65521), B := BitVec.ofNat 32 (s.B.toNat % 65521), CNT := 0#13,
               trace := s.trace ++ [.res (BitVec.ofNat 32 (s.B.toNat % 65521 * 65536 + s.A.toNat % 65521))] }) ∧
    (s.ERR = true → exec .read s = .next s) ∧
    val s = BitVec.ofNat 32 (s.B.toNat % 65521 * 65536 + s.A.toNat % 65521) ∧
    canonical (val s) = true

/-- R60: EMIT reduces and puts the four bytes of the value on `obyte`, high byte of `b`, low byte of `b`, high byte of `a`,
low byte of `a`; under the fault gate it puts out no byte at all. -/
def Obligations.EmitResult : Prop :=
  ∀ s : State,
    (s.ERR = false → exec .emit s = .next
      { s with A := BitVec.ofNat 32 (s.A.toNat % 65521), B := BitVec.ofNat 32 (s.B.toNat % 65521), CNT := 0#13,
               trace := s.trace ++
                 [.byte (BitVec.ofNat 8 (s.B.toNat % 65521 / 256)), .byte (BitVec.ofNat 8 (s.B.toNat % 65521 % 256)),
                  .byte (BitVec.ofNat 8 (s.A.toNat % 65521 / 256)), .byte (BitVec.ofNat 8 (s.A.toNat % 65521 % 256))] }) ∧
    (s.ERR = true → exec .emit s = .next s)

/-- R28: the serial form is most significant byte first: its four bytes, read as digits to the base 256, are the value. -/
def Obligations.SerialFormIsBigEndian : Prop :=
  (∀ v : Word, (be32 v).length = 4 ∧ (be32 v).foldl (fun acc b => acc * 256 + b.toNat) 0 = v.toNat) ∧
  be32 0x024D0127#32 = [0x02#8, 0x4D#8, 0x01#8, 0x27#8]

/-- R17, R61, R92: only READ and EMIT put anything out, only in an unfaulted engine, and what they put out is the value of
the state, which is canonical; the output events before stay as they are. -/
def Obligations.OutputsAreTheValue : Prop :=
  ∀ s t : State, step s = .next t →
    canonical (val s) = true ∧
    (t.trace = s.trace ∨
      (s.ERR = false ∧ ∃ cw rest, s.pending = .command cw :: rest ∧
        ((decode cw = .ok .read ∧ t.trace = s.trace ++ [.res (val s)]) ∨
         (decode cw = .ok .emit ∧ t.trace = s.trace ++ (be32 (val s)).map .byte))))

/-- R62: READ and EMIT do not end the stream: they keep the value, and after READ a second READ puts out the same number
and changes nothing else. -/
def Obligations.ReadingIsRepeatable : Prop :=
  ∀ s t : State, s.ERR = false →
    (exec .read s = .next t → val t = val s ∧
      exec .read t = .next { t with trace := t.trace ++ [.res (val s)] }) ∧
    (exec .emit s = .next t → val t = val s ∧
      exec .read t = .next { t with trace := t.trace ++ [.res (val s)] })

/-! ## Frames -/

/-- What NOP, INIT, SEED, BYTE and FLUSH leave unchanged: the fault flag, what the host has still to present and the output
trace; NOP leaves the data registers too. -/
def Obligations.FrameOfSilentCommands : Prop :=
  ∀ (s t : State) (i : Instr),
    i = .nop ∨ i = .init ∨ (∃ p, i = .seed p) ∨ (∃ x, i = .byte x) ∨ i = .flush →
    exec i s = .next t →
    t.ERR = s.ERR ∧ t.pending = s.pending ∧ t.trace = s.trace ∧
    (i = .nop → t.A = s.A ∧ t.B = s.B ∧ t.CNT = s.CNT)

/-- What READ and EMIT leave unchanged: the fault flag, what the host has still to present and every output event before;
and the halves of the value, which is all that a later output can show. -/
def Obligations.FrameOfOutputCommands : Prop :=
  ∀ (s t : State) (i : Instr), i = .read ∨ i = .emit → exec i s = .next t →
    t.ERR = s.ERR ∧ t.pending = s.pending ∧ s.trace <+: t.trace ∧
    t.A.toNat % 65521 = s.A.toNat % 65521 ∧ t.B.toNat % 65521 = s.B.toNat % 65521

/-- R23, R42, R54, R62: NOP, FLUSH, READ and EMIT leave the value of the state as it was, in every state. -/
def Obligations.HintsAndReadsKeepTheValue : Prop :=
  ∀ (s t : State) (i : Instr), i = .nop ∨ i = .flush ∨ i = .read ∨ i = .emit → exec i s = .next t → val t = val s

/-! ## Bounds -/

/-- R22: the bounds on `CNT`, `A` and `B` are kept by every step. -/
def Obligations.BoundsKeptByEveryStep : Prop :=
  ∀ s t : State, WithinBounds s → step s = .next t → WithinBounds t

/-- R22, R24: the bounds, loose and tight, hold after reset, whose value is the identity. -/
def Obligations.BoundsHoldAtReset : Prop :=
  WithinBounds State.reset ∧ WithinTightBounds State.reset ∧ val State.reset = Config.INIT_VALUE

/-- R22: in every state reached from reset by any sequence of words and resets the bounds hold, and `A` and `B` stay below
their greatest values. -/
def Obligations.BoundsHoldWhenReached : Prop :=
  ∀ (program : List Stimulus) (k : Nat) (t : State),
    core.run k (presentProgram program State.reset) = .next t →
    WithinBounds t ∧ t.A.toNat ≤ 1481040 ∧ t.B.toNat ≤ 4293292200

/-- R22: the tighter bounds are kept by every step that does not seed a non-canonical value, and hold after every command
that clears `CNT` other than such a seed, from whatever state. -/
def Obligations.TightBoundsKept : Prop :=
  (∀ s t : State, WithinTightBounds s → (s.ERR = false → seedsNonCanonical s = false) → step s = .next t →
    WithinTightBounds t) ∧
  (∀ (s t : State) (i : Instr), s.ERR = false → exec i s = .next t →
    i = .init ∨ (∃ p, canonical p = true ∧ i = .seed p) ∨ i = .flush ∨ i = .read ∨ i = .emit ∨
      (∃ x, s.CNT = 5551#13 ∧ i = .byte x) →
    WithinTightBounds t)

/-- R55: within the bounds neither addition of BYTE carries out of 32 bits, and the greatest sums are as given. -/
def Obligations.AddersNeverCarryOut : Prop :=
  ∀ (x : Byte) (s : State), WithinBounds s →
    s.A.toNat + x.toNat ≤ 1481295 ∧ s.B.toNat + (s.A.toNat + x.toNat) ≤ 4294773495 ∧
    (absorb x s).A.toNat = s.A.toNat + x.toNat ∧
    (absorb x s).B.toNat = s.B.toNat + (s.A.toNat + x.toNat)

/-- R7: 5552 is the block size of the inequality for 32 bits: the largest byte count whose bound fits. -/
def Obligations.BlockSizeIsTheLargest : Prop :=
  Config.IsBlockSize Config.W Config.NMAX

/-! ## What a stream computes -/

/-- R23, R56: BYTE commands with NOP, FLUSH, READ and EMIT anywhere among them bring the value to the per-byte reference
over the bytes, whatever the place of the reductions. -/
def Obligations.StreamComputesAdler : Prop :=
  ∀ (s : State) (is : List Instr) (rest : List Stimulus),
    WithinBounds s → s.ERR = false → is.all continuesStream = true → s.pending = stimuliOf is ++ rest →
    ∃ t : State, core.run is.length s = .next t ∧ t.ERR = false ∧ t.pending = rest ∧
      val t = adler s.A.toNat s.B.toNat (bytesOf is)

/-- R63, R68: from any unfaulted state `CALC S` puts out exactly one event, `Out.RES(Calculate(S))`, whatever the state
held before. -/
def Obligations.CalcPutsOutCalculate : Prop :=
  ∀ (s : State) (S : List Byte) (rest : List Stimulus),
    s.ERR = false → s.pending = stimuliOf (calcCommands S) ++ rest →
    ∃ t : State, core.run (S.length + 2) s = .next t ∧ t.ERR = false ∧ t.pending = rest ∧
      t.trace = s.trace ++ [.res (calculate S)]

/-- R64: from any unfaulted state `UPDATE p, S` puts out exactly one event, `Out.RES(Update(p, S))`, for every `p`. -/
def Obligations.UpdatePutsOutUpdate : Prop :=
  ∀ (s : State) (p : Word) (S : List Byte) (rest : List Stimulus),
    s.ERR = false → s.pending = stimuliOf (updateCommands p S) ++ rest →
    ∃ t : State, core.run (S.length + 2) s = .next t ∧ t.ERR = false ∧ t.pending = rest ∧
      t.trace = s.trace ++ [.res (update p S)]

/-- R45, R62: `CONT S` continues the stream in the engine and puts out `Update(v, S)`, `v` the engine's current value. -/
def Obligations.ContContinuesTheStream : Prop :=
  ∀ (s : State) (S : List Byte) (rest : List Stimulus),
    WithinBounds s → s.ERR = false → s.pending = stimuliOf (contCommands S) ++ rest →
    ∃ t : State, core.run (S.length + 1) s = .next t ∧ t.ERR = false ∧ t.pending = rest ∧
      t.trace = s.trace ++ [.res (update (val s) S)]

/-- R65: the concatenation law, at any split point and for any way of cutting a sequence into chunks. -/
def Obligations.ConcatenationLaw : Prop :=
  (∀ (p : Word) (X Y : List Byte), update (update p X) Y = update p (X ++ Y)) ∧
  (∀ X Y : List Byte, update (update 0x00000001#32 X) Y = calculate (X ++ Y)) ∧
  (∀ (S : List Byte) (k : Nat), update (update 0x00000001#32 (S.take k)) (S.drop k) = calculate S) ∧
  (∀ chunks : List (List Byte), chunks.foldl update 0x00000001#32 = calculate chunks.flatten)

/-- R66: the closed form, sums over the naturals, with the contribution `n·a0` of the initial `a` to `b`;
the two checks of the rule. -/
def Obligations.ClosedForm : Prop :=
  (∀ S : List Byte, calculate S =
    pack (BitVec.ofNat 16 ((1 + ∑ i : Fin S.length, (S.get i).toNat) % 65521))
      (BitVec.ofNat 16 ((S.length + ∑ i : Fin S.length, (S.length - i.val) * (S.get i).toNat) % 65521))) ∧
  (∀ (p : Word) (S : List Byte), update p S =
    pack (BitVec.ofNat 16 (((lo16 p).toNat + ∑ i : Fin S.length, (S.get i).toNat) % 65521))
      (BitVec.ofNat 16 (((hi16 p).toNat + S.length * (lo16 p).toNat +
        ∑ i : Fin S.length, (S.length - i.val) * (S.get i).toNat) % 65521))) ∧
  calculate [0x00#8] = 0x00010001#32 ∧ calculate [0x61#8, 0x62#8, 0x63#8] = 0x024D0127#32

/-- R67: the empty input: `Calculate([])` is 1; `INIT`, `READ` puts it out, and so does `READ` straight after reset; an
empty chunk changes no canonical value. -/
def Obligations.EmptyInput : Prop :=
  calculate [] = 0x00000001#32 ∧
  (∀ s : State, s.ERR = false → ∃ t u, exec .init s = .next t ∧ exec .read t = .next u ∧
    u.trace = s.trace ++ [.res 0x00000001#32]) ∧
  (∃ u, exec .read State.reset = .next u ∧ u.trace = [.res 0x00000001#32]) ∧
  (∀ v : Word, canonical v = true → update v [] = v)

/-- R69: the half `a` does not depend on the order of the bytes; the half `b` does, with the witness of the rule. -/
def Obligations.OrderSensitivity : Prop :=
  (∀ S S' : List Byte, S.Perm S' → lo16 (calculate S) = lo16 (calculate S')) ∧
  calculate [0x01#8, 0x02#8] = 0x00060004#32 ∧ calculate [0x02#8, 0x01#8] = 0x00070004#32

/-- R70: `Calculate` is `Update` from the identity, for the functions and for the commands: `CALC S` and
`UPDATE 0x00000001, S` take every unfaulted state to the same state. -/
def Obligations.CalculateIsUpdateFromIdentity : Prop :=
  (∀ S : List Byte, calculate S = update 0x00000001#32 S) ∧
  (∀ (s : State) (S : List Byte) (rest : List Stimulus),
    core.run (S.length + 2) { s with pending := stimuliOf (calcCommands S) ++ rest } =
    core.run (S.length + 2) { s with pending := stimuliOf (updateCommands 0x00000001#32 S) ++ rest })

/-- R71: a stream moves by value: seeding, on any unfaulted engine, the value READ put out gives that engine the
accumulators and the count that READ left. -/
def Obligations.SaveAndRestore : Prop :=
  ∀ s s' : State, s.ERR = false → s'.ERR = false →
    ∃ t t', exec .read s = .next t ∧ t.trace = s.trace ++ [.res (val s)] ∧
      exec (.seed (val s)) s' = .next t' ∧ t'.A = t.A ∧ t'.B = t.B ∧ t'.CNT = t.CNT

/-- R72: a seed that is not canonical computes as the canonical value congruent to it; no fault, and the
bounds still hold; the examples of the rule. -/
def Obligations.NonCanonicalSeeds : Prop :=
  (∀ (p : Word) (S : List Byte), update p S =
    update (pack (BitVec.ofNat 16 ((lo16 p).toNat % 65521)) (BitVec.ofNat 16 ((hi16 p).toNat % 65521))) S) ∧
  (∀ (p : Word) (s : State), s.ERR = false → ∃ t, exec (.seed p) s = .next t ∧ t.ERR = false ∧ WithinBounds t) ∧
  update 0xFFFFFFFF#32 [] = 0x000E000E#32 ∧ update 0xFFF1FFF1#32 [] = 0x00000000#32 ∧
  update 0xFFFFFFFF#32 [0x01#8] = 0x001D000F#32

/-- R21, R42, R56: no output depends on the hidden state: two states within the bounds that agree on value, fault flag,
what is to come and the trace agree on them after any number of steps, whatever their `A`, `B` and `CNT`. -/
def Obligations.OutputsDependOnTheValueOnly : Prop :=
  ∀ (k : Nat) (s s' : State), WithinBounds s → WithinBounds s' →
    val s = val s' → s.ERR = s'.ERR → s.pending = s'.pending → s.trace = s'.trace →
    ∃ t t' : State, core.run k s = .next t ∧ core.run k s' = .next t' ∧
      val t = val t' ∧ t.ERR = t'.ERR ∧ t.pending = t'.pending ∧ t.trace = t'.trace

/-- R42: inserting a NOP or a FLUSH anywhere in a sequence of words, legal or not, leaves every output event the same. -/
def Obligations.HintsChangeNoOutput : Prop :=
  ∀ (s : State) (xs ys : List CommandWord) (hint : Instr), WithinBounds s → hint = .nop ∨ hint = .flush →
    ∃ t t' : State,
      core.run (xs.length + ys.length) { s with pending := (xs ++ ys).map .command } = .next t ∧
      core.run (xs.length + ys.length + 1) { s with pending := (xs ++ encode hint :: ys).map .command } = .next t' ∧
      t'.trace = t.trace ∧ val t' = val t ∧ t'.ERR = t.ERR

/-! ## Several engines, and the assembler -/

/-- R33, R85: each engine starts at its own reset, a step of one engine leaves every other engine as it was, and the order of the steps of several engines does
not matter: schedules with the same steps for every engine end in the same system. -/
def Obligations.EnginesAreIndependent : Prop :=
  ∀ (nEng : Nat) (y : System nEng),
    (∀ (k j : Fin nEng) (z : System nEng), j ≠ k → stepEngine k y = .next z → z.engines[j] = y.engines[j]) ∧
    (∀ k : Fin nEng, (systemReset nEng).engines[k] = State.reset) ∧
    (∀ ks ks' : List (Fin nEng), ks.Perm ks' → ∃ z, runSchedule ks y = .next z ∧ runSchedule ks' y = .next z)

/-- R44: the assembler refuses an operand outside its range and never truncates one; only the raw directive WORD can give a
word that decodes to nothing. -/
def Obligations.AssemblerNeverTruncates : Prop :=
  (∀ p : Nat, assemble (.seed p) = if p < 2 ^ 32 then .ok [BitVec.ofNat 40 (0x0200000000 + p)] else
    .error .operandOutOfRange) ∧
  (∀ x : Nat, assemble (.byte x) = if x < 2 ^ 8 then .ok [BitVec.ofNat 40 (0x0300000000 + x)] else
    .error .operandOutOfRange) ∧
  (∀ w : Nat, assemble (.word w) = if w < 2 ^ 40 then .ok [BitVec.ofNat 40 w] else .error .operandOutOfRange) ∧
  (∀ l : SourceLine, l.wellFormed = false → assemble l = .error .operandOutOfRange) ∧
  (∀ (l : SourceLine) (ws : List CommandWord), assemble l = .ok ws → (∀ w, l ≠ .word w) →
    ∀ cw ∈ ws, ∃ i, decode cw = .ok i)

/-- R45: each pseudo-command expands to its sequence of commands. -/
def Obligations.PseudoCommandsExpand : Prop :=
  ∀ (p : Word) (S : List Byte),
    assemble (.chunk (S.map BitVec.toNat)) = .ok ((S.map Instr.byte).map encode) ∧
    assemble (.calc (S.map BitVec.toNat)) = .ok (([Instr.init] ++ S.map Instr.byte ++ [Instr.read]).map encode) ∧
    assemble (.update p.toNat (S.map BitVec.toNat)) = .ok (([Instr.seed p] ++ S.map Instr.byte ++ [Instr.read]).map encode) ∧
    assemble (.cont (S.map BitVec.toNat)) = .ok ((S.map Instr.byte ++ [Instr.read]).map encode) ∧
    assemble .footer = .ok [encode .emit]

/-- R44, R46: the textual form a listing gives a word, legal or not, assembles to that word and nothing else. -/
def Obligations.ListingTextAssembles : Prop :=
  ∀ cw : CommandWord, assembleLine (renderWord cw) = .ok [cw]
end

