-- ==== Sys2Proof/Laws/Bounds.lean ====
section
/-! SUPPORT. The two bounds of spec/10_state.md R22 as recurrences. `looseBound` and `tightBound` are irreducible: use these
lemmas instead of unfolding them, so that arithmetic tactics see them as plain numbers. -/

namespace Sys2Proof.Machine

/-- The quadratic part grows by `255 * (n + 1)`. -/
theorem half_square_step (n : Nat) :
    255 * (n + 1) * (n + 1 + 1) / 2 = 255 * n * (n + 1) / 2 + 255 * (n + 1) :=
  (congrArg (· / 2) (show 255 * (n + 1) * (n + 1 + 1) = 255 * n * (n + 1) + 2 * (255 * (n + 1)) by ring)).trans
    (Nat.add_mul_div_left _ _ (by decide))

theorem looseBound_eq (n : Nat) : looseBound n = 65535 * (n + 1) + 255 * n * (n + 1) / 2 := by
  unfold looseBound
  rfl

theorem tightBound_eq (n : Nat) : tightBound n = 65520 * (n + 1) + 255 * n * (n + 1) / 2 := by
  unfold tightBound
  rfl

theorem looseBound_zero : looseBound 0 = 65535 := by rw [looseBound_eq]

theorem tightBound_zero : tightBound 0 = 65520 := by rw [tightBound_eq]

/-- One more byte adds the greatest `a` there can be after it, `65535 + 255 * (n + 1)`, written out. -/
theorem looseBound_succ (n : Nat) : looseBound (n + 1) = looseBound n + (255 * n + 65790) := by
  refine (looseBound_eq (n + 1)).trans ((congrArg (65535 * (n + 1 + 1) + ·) (half_square_step n)).trans ?_)
  refine Eq.trans ?_ (congrArg (· + (255 * n + 65790)) (looseBound_eq n).symm)
  ring

theorem tightBound_succ (n : Nat) : tightBound (n + 1) = tightBound n + (255 * n + 65775) := by
  refine (tightBound_eq (n + 1)).trans ((congrArg (65520 * (n + 1 + 1) + ·) (half_square_step n)).trans ?_)
  refine Eq.trans ?_ (congrArg (· + (255 * n + 65775)) (tightBound_eq n).symm)
  ring

theorem looseBound_mono {m n : Nat} (h : m ≤ n) : looseBound m ≤ looseBound n := by
  induction h with
  | refl => exact le_rfl
  | step _ ih => rw [looseBound_succ]; omega

theorem tightBound_le_looseBound (n : Nat) : tightBound n ≤ looseBound n := by
  rw [tightBound_eq, looseBound_eq]
  exact Nat.add_le_add_right (Nat.mul_le_mul_right _ (by decide)) _

/-- The greatest value between steps (R22). -/
theorem looseBound_5551 : looseBound 5551 = 4293292200 := by rw [looseBound_eq]

/-- The greatest value inside a step (R22, R55). -/
theorem looseBound_5552 : looseBound 5552 = 4294773495 := by rw [looseBound_eq]

end Sys2Proof.Machine
end

