-- ==== Sys2Proof/Laws/Decode.lean ====
section
/-! SUPPORT. The fields of an encoded word, and the decoder's cases. -/

namespace Sys2Proof

/-- A word as a number: `op` above 32 bits of `imm`. -/
theorem commandWord_toNat (op : BitVec 8) (imm : Word) :
    (commandWord op imm).toNat = op.toNat * 2 ^ 32 + imm.toNat := by
  rw [commandWord, BitVec.toNat_append, ← Nat.shiftLeft_add_eq_or_of_lt imm.isLt, Nat.shiftLeft_eq]

theorem opField_toNat (cw : CommandWord) : (opField cw).toNat = cw.toNat / 2 ^ 32 := by
  have := cw.isLt
  simp only [opField, BitVec.extractLsb'_toNat, Nat.shiftRight_eq_div_pow]
  omega

theorem immField_toNat (cw : CommandWord) : (immField cw).toNat = cw.toNat % 2 ^ 32 := by
  simp [immField]

@[simp] theorem opField_commandWord (op : BitVec 8) (imm : Word) : opField (commandWord op imm) = op := by
  apply BitVec.eq_of_toNat_eq
  have := imm.isLt
  rw [opField_toNat, commandWord_toNat]
  omega

@[simp] theorem immField_commandWord (op : BitVec 8) (imm : Word) : immField (commandWord op imm) = imm := by
  apply BitVec.eq_of_toNat_eq
  have := imm.isLt
  rw [immField_toNat, commandWord_toNat]
  omega

/-- A word is its two fields side by side. -/
theorem commandWord_fields (cw : CommandWord) : commandWord (opField cw) (immField cw) = cw := by
  apply BitVec.eq_of_toNat_eq
  rw [commandWord_toNat, opField_toNat, immField_toNat]
  omega

/-- Masking a word masks its fields. -/
theorem commandWord_and (op m : BitVec 8) (imm n : Word) :
    commandWord op imm &&& commandWord m n = commandWord (op &&& m) (imm &&& n) := by
  apply BitVec.eq_of_getLsbD_eq
  intro i _
  simp only [commandWord, BitVec.getLsbD_and, BitVec.getLsbD_append]
  split <;> rfl

/-- What a Z-format opcode decodes to. -/
theorem decodeZ_ok_iff {i j : Instr} {imm : Word} : decodeZ i imm = .ok j ↔ imm = 0#32 ∧ i = j := by
  by_cases h : imm = 0#32 <;> simp [decodeZ, h]

end Sys2Proof
end

