-- ==== Sys2Proof/Laws/Operands.lean ====
section
/-! SUPPORT. The value forms as natural numbers: one lemma per function of `Machine/Operands.lean`. -/

namespace Sys2Proof.Machine

@[simp] theorem zextByte_toNat (x : Byte) : (zextByte x).toNat = x.toNat := by
  have := x.isLt
  simp only [zextByte, BitVec.toNat_setWidth]
  omega

@[simp] theorem zextHalf_toNat (h : Half) : (zextHalf h).toNat = h.toNat := by
  have := h.isLt
  simp only [zextHalf, BitVec.toNat_setWidth]
  omega

@[simp] theorem modM_toNat (v : Word) : (modM v).toNat = v.toNat % Config.M := by
  have : v.toNat % 65521 < 65521 := Nat.mod_lt _ (by decide)
  simp only [modM, Config.M, BitVec.toNat_ofNat]
  omega

theorem modM_lt (v : Word) : (modM v).toNat < Config.M := by
  rw [modM_toNat]
  exact Nat.mod_lt _ (by decide)

theorem lo16_toNat (v : Word) : (lo16 v).toNat = v.toNat % 65536 := by
  simp [lo16]

theorem hi16_toNat (v : Word) : (hi16 v).toNat = v.toNat / 65536 := by
  have := v.isLt
  simp only [hi16, BitVec.extractLsb'_toNat, Nat.shiftRight_eq_div_pow]
  omega

/-- A packed value is its low half with the high half 16 places up. -/
theorem pack_toNat (a b : Half) : (pack a b).toNat = b.toNat * 65536 + a.toNat := by
  have ha := a.isLt
  have hb := b.isLt
  have hsh : (zextHalf b <<< 16).toNat = b.toNat <<< 16 := by
    rw [BitVec.toNat_shiftLeft, zextHalf_toNat, Nat.shiftLeft_eq]
    exact Nat.mod_eq_of_lt (by omega)
  rw [pack, BitVec.toNat_or, hsh, zextHalf_toNat, ← Nat.shiftLeft_add_eq_or_of_lt ha, Nat.shiftLeft_eq]

@[simp] theorem lo16_pack (a b : Half) : lo16 (pack a b) = a := by
  apply BitVec.eq_of_toNat_eq
  rw [lo16_toNat, pack_toNat]
  have := a.isLt
  omega

@[simp] theorem hi16_pack (a b : Half) : hi16 (pack a b) = b := by
  apply BitVec.eq_of_toNat_eq
  rw [hi16_toNat, pack_toNat]
  have := a.isLt
  omega

@[simp] theorem pack_lo16_hi16 (v : Word) : pack (lo16 v) (hi16 v) = v := by
  apply BitVec.eq_of_toNat_eq
  rw [pack_toNat, lo16_toNat, hi16_toNat]
  omega

theorem half_ofNat_mod (n : Nat) : (BitVec.ofNat 16 (n % Config.M)).toNat = n % Config.M := by
  have : n % 65521 < 65521 := Nat.mod_lt _ (by decide)
  simp only [Config.M, BitVec.toNat_ofNat]
  omega

/-- The low half of a value that is already reduced is all of it. -/
theorem lo16_modM (v : Word) : lo16 (modM v) = BitVec.ofNat 16 (v.toNat % Config.M) := by
  apply BitVec.eq_of_toNat_eq
  rw [lo16_toNat, modM_toNat, half_ofNat_mod]
  have : v.toNat % Config.M < Config.M := Nat.mod_lt _ (by decide)
  simp only [Config.M] at this ⊢
  omega

theorem lo16_packMod (a b : Nat) : (lo16 (packMod a b)).toNat = a % Config.M := by
  rw [packMod, lo16_pack, half_ofNat_mod]

theorem hi16_packMod (a b : Nat) : (hi16 (packMod a b)).toNat = b % Config.M := by
  rw [packMod, hi16_pack, half_ofNat_mod]

/-- `packMod` sees its arguments only modulo `M`. -/
theorem packMod_congr {a a' b b' : Nat} (ha : a % Config.M = a' % Config.M) (hb : b % Config.M = b' % Config.M) :
    packMod a b = packMod a' b' := by
  rw [packMod, packMod, ha, hb]

end Sys2Proof.Machine
end

