-- ==== Sys2Proof/Laws/State.lean ====
section
/-! SUPPORT. One lemma per field and per update of the state, so that no proof unfolds a record update. -/

namespace Sys2Proof.Machine

@[simp] theorem State.withErr_A (s : State) (e : Bool) : (s.withErr e).A = s.A := rfl
@[simp] theorem State.withErr_B (s : State) (e : Bool) : (s.withErr e).B = s.B := rfl
@[simp] theorem State.withErr_CNT (s : State) (e : Bool) : (s.withErr e).CNT = s.CNT := rfl
@[simp] theorem State.withErr_ERR (s : State) (e : Bool) : (s.withErr e).ERR = e := rfl
@[simp] theorem State.withErr_pending (s : State) (e : Bool) : (s.withErr e).pending = s.pending := rfl
@[simp] theorem State.withErr_trace (s : State) (e : Bool) : (s.withErr e).trace = s.trace := rfl

@[simp] theorem State.withSums_A (s : State) (a b : Word) (n : Count) : (s.withSums a b n).A = a := rfl
@[simp] theorem State.withSums_B (s : State) (a b : Word) (n : Count) : (s.withSums a b n).B = b := rfl
@[simp] theorem State.withSums_CNT (s : State) (a b : Word) (n : Count) : (s.withSums a b n).CNT = n := rfl
@[simp] theorem State.withSums_ERR (s : State) (a b : Word) (n : Count) : (s.withSums a b n).ERR = s.ERR := rfl
@[simp] theorem State.withSums_pending (s : State) (a b : Word) (n : Count) : (s.withSums a b n).pending = s.pending := rfl
@[simp] theorem State.withSums_trace (s : State) (a b : Word) (n : Count) : (s.withSums a b n).trace = s.trace := rfl

@[simp] theorem State.putOut_A (s : State) (es : List OutEvent) : (s.putOut es).A = s.A := rfl
@[simp] theorem State.putOut_B (s : State) (es : List OutEvent) : (s.putOut es).B = s.B := rfl
@[simp] theorem State.putOut_CNT (s : State) (es : List OutEvent) : (s.putOut es).CNT = s.CNT := rfl
@[simp] theorem State.putOut_ERR (s : State) (es : List OutEvent) : (s.putOut es).ERR = s.ERR := rfl
@[simp] theorem State.putOut_pending (s : State) (es : List OutEvent) : (s.putOut es).pending = s.pending := rfl
@[simp] theorem State.putOut_trace (s : State) (es : List OutEvent) : (s.putOut es).trace = s.trace ++ es := rfl

@[simp] theorem State.withPending_A (s : State) (p : List Stimulus) : (s.withPending p).A = s.A := rfl
@[simp] theorem State.withPending_B (s : State) (p : List Stimulus) : (s.withPending p).B = s.B := rfl
@[simp] theorem State.withPending_CNT (s : State) (p : List Stimulus) : (s.withPending p).CNT = s.CNT := rfl
@[simp] theorem State.withPending_ERR (s : State) (p : List Stimulus) : (s.withPending p).ERR = s.ERR := rfl
@[simp] theorem State.withPending_pending (s : State) (p : List Stimulus) : (s.withPending p).pending = p := rfl
@[simp] theorem State.withPending_trace (s : State) (p : List Stimulus) : (s.withPending p).trace = s.trace := rfl

/-- Two states with equal fields are equal. -/
theorem State.eq_of_fields {s t : State} (hA : s.A = t.A) (hB : s.B = t.B) (hC : s.CNT = t.CNT) (hE : s.ERR = t.ERR)
    (hp : s.pending = t.pending) (ht : s.trace = t.trace) : s = t := by
  cases s; cases t; simp_all

end Sys2Proof.Machine
end

