-- ==== Sys2Proof/Laws/Ops.lean ====
section
/-! SUPPORT. What each shared operation can do, said once. -/

namespace Sys2Proof.Machine

theorem gate_faulted {s : State} (f : State → State) (h : s.ERR = true) : gate f s = s := by
  simp [gate, h]

theorem gate_unfaulted {s : State} (f : State → State) (h : s.ERR = false) : gate f s = f s := by
  simp [gate, h]

theorem reduce_A (s : State) : (reduce s).A = modM s.A := rfl
theorem reduce_B (s : State) : (reduce s).B = modM s.B := rfl
theorem reduce_CNT (s : State) : (reduce s).CNT = 0#13 := rfl
theorem reduce_ERR (s : State) : (reduce s).ERR = s.ERR := rfl
theorem reduce_pending (s : State) : (reduce s).pending = s.pending := rfl
theorem reduce_trace (s : State) : (reduce s).trace = s.trace := rfl

/-- The packed value of a reduced state is the value of the state (R59, R61). -/
theorem packed_reduce (s : State) : packed (reduce s) = val s := by
  simp only [packed, reduce, State.withSums_A, State.withSums_B, lo16_modM, val, packMod]

/-- The guard either reduces, at `CNT = NMAX`, or does nothing. -/
theorem blockGuard_cases (s : State) :
    (s.CNT.toNat = Config.NMAX ∧ blockGuard s = reduce s) ∨ (s.CNT.toNat ≠ Config.NMAX ∧ blockGuard s = s) := by
  by_cases h : s.CNT.toNat = Config.NMAX <;> simp [blockGuard, h]

/-- Below the top of the counter's range the count goes up by one. -/
theorem absorb_CNT {s : State} (x : Byte) (h : s.CNT.toNat ≤ 5551) : (absorb x s).CNT.toNat = s.CNT.toNat + 1 := by
  simp only [absorb, State.withSums_CNT, BitVec.toNat_add, BitVec.toNat_ofNat]
  omega

theorem absorb_ERR (x : Byte) (s : State) : (absorb x s).ERR = s.ERR := rfl
theorem absorb_pending (x : Byte) (s : State) : (absorb x s).pending = s.pending := rfl
theorem absorb_trace (x : Byte) (s : State) : (absorb x s).trace = s.trace := rfl

theorem blockGuard_ERR (s : State) : (blockGuard s).ERR = s.ERR := by
  rcases blockGuard_cases s with ⟨_, h⟩ | ⟨_, h⟩ <;> (rw [h]; try rfl)

theorem blockGuard_pending (s : State) : (blockGuard s).pending = s.pending := by
  rcases blockGuard_cases s with ⟨_, h⟩ | ⟨_, h⟩ <;> (rw [h]; try rfl)

theorem blockGuard_trace (s : State) : (blockGuard s).trace = s.trace := by
  rcases blockGuard_cases s with ⟨_, h⟩ | ⟨_, h⟩ <;> (rw [h]; try rfl)

/-- The effect of each command on an unfaulted engine. -/
def effect : Instr → State → State
  | .nop, s => s
  | .init, s => loadIdentity s
  | .seed p, s => loadHalves p s
  | .byte x, s => blockGuard (absorb x s)
  | .flush, s => reduce s
  | .read, s => putRes (reduce s)
  | .emit, s => putBytes (reduce s)

/-- Every command is its effect behind the fault gate: `exec` always answers a next state. -/
theorem exec_eq_gate (i : Instr) (s : State) : exec i s = .next (gate (effect i) s) := by
  cases i <;> rfl

/-- No command writes the fault flag. -/
theorem effect_ERR (i : Instr) (s : State) : (effect i s).ERR = s.ERR := by
  cases i with
  | byte x => exact blockGuard_ERR _
  | _ => rfl

/-- No command touches what the host has still to present. -/
theorem effect_pending (i : Instr) (s : State) : (effect i s).pending = s.pending := by
  cases i with
  | byte x => exact blockGuard_pending _
  | _ => rfl

end Sys2Proof.Machine
end

