-- ==== Sys2Proof/Laws/PerInstr.lean ====
section
/-! SUPPORT. Statements about all instructions, one lemma per constructor: the word of every command lies in its own row of
the opcode map (spec/30_encoding.md R39). -/

namespace Sys2Proof.Laws.EncodesInRow

/-- The command's row is a row of the table under the command's mnemonic, and the command's word fits it. -/
def Statement (i : Instr) : Prop :=
  i.row ∈ opcodeTable ∧ i.row.mnemonic = i.mnemonic ∧ i.row.fits (encode i) = true

theorem nop : Statement .nop := by unfold Statement; decide
theorem init : Statement .init := by unfold Statement; decide
theorem flush : Statement .flush := by unfold Statement; decide
theorem read : Statement .read := by unfold Statement; decide
theorem emit : Statement .emit := by unfold Statement; decide

theorem seed (p : Word) : Statement (.seed p) := by
  refine ⟨by simp [Instr.row, opcodeTable], rfl, ?_⟩
  have h : encode (.seed p) &&& commandWord 0xFF#8 0#32 = commandWord 0x02#8 0#32 := by
    rw [encode, commandWord_and, BitVec.and_zero]
    rfl
  simp only [TableRow.fits, beq_iff_eq]
  exact h

theorem byte (x : Byte) : Statement (.byte x) := by
  refine ⟨by simp [Instr.row, opcodeTable], rfl, ?_⟩
  have hx : x.setWidth 32 &&& 0xFFFFFF00#32 = 0#32 := by
    have hm : (0xFFFFFF00#32 : Word) = (0xFFFFFF#24 ++ 0#8 : BitVec 32) := by decide
    apply BitVec.eq_of_getLsbD_eq
    intro i _
    rw [hm, BitVec.getLsbD_and, BitVec.getLsbD_append, BitVec.getLsbD_setWidth]
    by_cases h : i < 8
    · simp [h]
    · simp [BitVec.getLsbD_of_ge x i (by omega)]
  have h : encode (.byte x) &&& commandWord 0xFF#8 0xFFFFFF00#32 = commandWord 0x03#8 0#32 := by
    rw [encode, commandWord_and, hx]
    rfl
  simp only [TableRow.fits, beq_iff_eq]
  exact h

end Sys2Proof.Laws.EncodesInRow
end

