-- ==== Sys2Proof/Laws/Step.lean ====
section
/-! SUPPORT. What one step can do, said once: it always answers a next state, and that state is `afterStimulus`. -/

namespace Sys2Proof.Machine

/-- The state after one word on `cmd`. -/
def afterWord (cw : CommandWord) (s : State) : State :=
  gate (fun s => match decode cw with
    | .ok i => effect i s
    | .error _ => takeIllegalCommand s) s

/-- The state after what the host presents next. -/
def afterStimulus (s : State) : State :=
  match s.pending with
  | [] => s
  | .command cw :: rest => afterWord cw (s.withPending rest)
  | .reset :: rest => resetEngine (s.withPending rest)
  | .resetAndCommand cw :: rest => resetEngine (s.withPending (.command cw :: rest))

theorem acceptWord_eq (cw : CommandWord) (s : State) : acceptWord cw s = .next (afterWord cw s) := by
  cases h : s.ERR
  · cases hd : decode cw <;> simp [acceptWord, afterWord, h, gate, exec_eq_gate, hd]
  · simp [acceptWord, afterWord, gate, h]

/-- A step always answers a next state. -/
theorem step_eq (s : State) : step s = .next (afterStimulus s) := by
  match hp : s.pending with
  | [] | .command _ :: _ | .reset :: _ | .resetAndCommand _ :: _ =>
    simp [step, takeStimulus, afterStimulus, hp, acceptWord_eq]

/-- What a step can do, case by case. -/
theorem step_cases {s t : State} (h : step s = .next t) :
    (s.pending = [] ∧ t = s) ∨
    (∃ cw rest, s.pending = .command cw :: rest ∧ s.ERR = true ∧ t = s.withPending rest) ∨
    (∃ cw rest i, s.pending = .command cw :: rest ∧ s.ERR = false ∧ decode cw = .ok i ∧
      t = effect i (s.withPending rest)) ∨
    (∃ cw rest e, s.pending = .command cw :: rest ∧ s.ERR = false ∧ decode cw = .error e ∧
      t = takeIllegalCommand (s.withPending rest)) ∨
    (∃ rest, s.pending = .reset :: rest ∧ t = resetEngine (s.withPending rest)) ∨
    (∃ cw rest, s.pending = .resetAndCommand cw :: rest ∧ t = resetEngine (s.withPending (.command cw :: rest))) := by
  rw [step_eq] at h
  cases h
  unfold afterStimulus
  match hp : s.pending with
  | [] => exact .inl ⟨rfl, rfl⟩
  | .reset :: rest => exact .inr (.inr (.inr (.inr (.inl ⟨rest, rfl, rfl⟩))))
  | .resetAndCommand cw :: rest => exact .inr (.inr (.inr (.inr (.inr ⟨cw, rest, rfl, rfl⟩))))
  | .command cw :: rest =>
    cases he : s.ERR with
    | true => exact .inr (.inl ⟨cw, rest, rfl, rfl, by simp [afterWord, gate, he]⟩)
    | false =>
      cases hd : decode cw with
      | ok i => exact .inr (.inr (.inl ⟨cw, rest, i, rfl, rfl, hd, by simp [afterWord, gate, he, hd]⟩))
      | error e => exact .inr (.inr (.inr (.inl ⟨cw, rest, e, rfl, rfl, hd, by simp [afterWord, gate, he, hd]⟩)))

/-- Runs of the machine compose. -/
theorem run_succ (k : Nat) (s : State) : core.run (k + 1) s = core.run k (afterStimulus s) := by
  simp only [Host.Core.run, core, step_eq]

end Sys2Proof.Machine
end

