-- ==== Sys2Proof/Tests/Slice0.lean ====
section
/-! SUPPORT. Tests: words, values and states from spec/95_test_vectors.md (section numbers in the comments) and from the
examples of the command rules; the smoke tests of the well-formedness checks; and, for every statement with hypotheses, a
witness that meets them. -/

namespace Sys2Proof.Tests

open Sys2Proof.Machine

/-- An engine with these registers, nothing to come and nothing put out. -/
def engine (a b : Word) (n : Count) (e : Bool) : State := { A := a, B := b, CNT := n, ERR := e, pending := [], trace := [] }

/-- The next state of an outcome, if it has one. -/
def nextOf (o : Host.Outcome State Fault Refusal) : Option State :=
  match o with
  | .next s => some s
  | _ => none

/-- The state after one step on one word, with nothing more to come. -/
def onWord (cw : CommandWord) (s : State) : Option State := nextOf (step (s.withPending [.command cw]))

/-- What a decoder's answer names, if it names a command. -/
def commandOf (r : Except IllegalWord Instr) : Option Instr :=
  match r with
  | .ok i => some i
  | .error _ => none

/-- The reason in a decoder's refusal. -/
def reasonOf (r : Except IllegalWord Instr) : Option IllegalWord :=
  match r with
  | .ok _ => none
  | .error e => some e

/-- The words of a line of text, if the assembler takes it. -/
def wordsOfText (t : String) : Option (List CommandWord) :=
  match assembleLine t.toList with
  | .ok ws => some ws
  | .error _ => none

/-- The assembler's refusal of a line of text. -/
def refusalOfText (t : String) : Option AsmError :=
  match assembleLine t.toList with
  | .ok _ => none
  | .error e => some e

/-! ## Decoding (section 2.1) -/

theorem test_decode_nop : commandOf (decode 0x0000000000#40) = some .nop := by decide
theorem test_decode_init : commandOf (decode 0x0100000000#40) = some .init := by decide
theorem test_decode_seed : commandOf (decode 0x02FFFFFFFF#40) = some (.seed 0xFFFFFFFF#32) := by decide
theorem test_decode_byte : commandOf (decode 0x03000000FF#40) = some (.byte 0xFF#8) := by decide
theorem test_decode_flush : commandOf (decode 0x0400000000#40) = some .flush := by decide
theorem test_decode_read : commandOf (decode 0x0500000000#40) = some .read := by decide
theorem test_decode_emit : commandOf (decode 0x0600000000#40) = some .emit := by decide
theorem test_decode_byte_bit_8 : reasonOf (decode 0x0300000100#40) = some .reservedBitsOfByte := by decide
theorem test_decode_byte_bit_31 : reasonOf (decode 0x0380000000#40) = some .reservedBitsOfByte := by decide
theorem test_decode_nop_operand : reasonOf (decode 0x0000000001#40) = some .operandOfZFormat := by decide
theorem test_decode_init_operand : reasonOf (decode 0x0100000001#40) = some .operandOfZFormat := by decide
theorem test_decode_flush_operand : reasonOf (decode 0x0400000001#40) = some .operandOfZFormat := by decide
theorem test_decode_read_operand : reasonOf (decode 0x0500000001#40) = some .operandOfZFormat := by decide
theorem test_decode_emit_operand : reasonOf (decode 0x06FFFFFFFF#40) = some .operandOfZFormat := by decide
theorem test_decode_first_undefined : reasonOf (decode 0x0700000000#40) = some .undefinedOpcode := by decide
theorem test_decode_all_ones : reasonOf (decode 0xFFFFFFFFFF#40) = some .undefinedOpcode := by decide

/-- The words R44 and section 2.2 print for SEED and BYTE. -/
theorem test_encode_seed : encode (.seed 0x024D0127#32) = 0x02024D0127#40 := by decide
theorem test_encode_byte : encode (.byte 0x61#8) = 0x0300000061#40 := by decide

/-- The table's bit numbering: bits 39 to 32 are the opcode. -/
theorem test_decodeTableWord_seed : decodeTableWord 40 0x02024D0127 = some (.seed 0x024D0127#32) := by decide
theorem test_decodeTableWord_refuses : decodeTableWord 40 0x0700000000 = none := by decide
theorem test_withFetchWord_runs :
    nextOf (step (State.reset.withFetchWord 40 0x0300000061)) = some (engine 0x62#32 0x62#32 1#13 false) := by decide

/-! ## Well-formedness: each check refuses a term -/

theorem test_wellFormed_instr : (Instr.seed 0xFFFFFFFF#32).wellFormed = true := by decide
theorem test_illFormed_seed : (SourceLine.seed 4294967296).wellFormed = false := by decide
theorem test_illFormed_byte : (SourceLine.byte 256).wellFormed = false := by decide
theorem test_illFormed_word : (SourceLine.word 1099511627776).wellFormed = false := by decide
theorem test_illFormed_chunk : (SourceLine.chunk [0, 256]).wellFormed = false := by decide
theorem test_illFormed_calc : (SourceLine.calc [256]).wellFormed = false := by decide
theorem test_illFormed_update_value : (SourceLine.update 4294967296 []).wellFormed = false := by decide
theorem test_illFormed_update_bytes : (SourceLine.update 0 [300]).wellFormed = false := by decide
theorem test_illFormed_cont : (SourceLine.cont [1, 2, 256]).wellFormed = false := by decide
theorem test_wellFormed_greatest : (SourceLine.update 4294967295 [255, 0]).wellFormed = true := by decide

/-! ## Control commands (section 2.2) -/

theorem test_nop : onWord 0x0000000000#40 (engine 0xC4#32 0x126#32 2#13 false) = some (engine 0xC4#32 0x126#32 2#13 false) := by
  decide
theorem test_init_mid_block :
    onWord 0x0100000000#40 (engine 0x00159952#32 0xEA369C07#32 5551#13 false) = some (engine 1#32 0#32 0#13 false) := by decide
theorem test_seed : onWord 0x02024D0127#40 State.reset = some (engine 0x127#32 0x24D#32 0#13 false) := by decide
theorem test_seed_non_canonical :
    onWord 0x02FFF10000#40 (engine 0xFFFF#32 0xFFFF#32 0#13 false) = some (engine 0#32 0xFFF1#32 0#13 false) := by decide

/-! ## Data commands (section 2.4) -/

theorem test_byte : onWord 0x0300000062#40 (engine 0x62#32 0x62#32 1#13 false) = some (engine 0xC4#32 0x126#32 2#13 false) := by
  decide
/-- The guard fires in the step of the 5552nd byte, at the greatest values the adders ever see (trace T3). -/
theorem test_byte_guard :
    onWord 0x03000000FF#40 (engine 0x00169950#32 0xFFE670A8#32 5551#13 false) = some (engine 0x9B99#32 0x0BAB#32 0#13 false) := by
  decide
theorem test_flush_mid_block :
    onWord 0x0400000000#40 (engine 0x00159952#32 0xEA369C07#32 5551#13 false) = some (engine 0x9A8D#32 0x5603#32 0#13 false) := by
  decide
theorem test_flush_both_halves_M :
    onWord 0x0400000000#40 (engine 0xFFF1#32 0xFFF1#32 0#13 false) = some (engine 0#32 0#32 0#13 false) := by decide

/-! ## Output commands (section 2.6) -/

theorem test_read :
    onWord 0x0500000000#40 (engine 0x00159952#32 0xEA369C07#32 5551#13 false) =
      some ((engine 0x9A8D#32 0x5603#32 0#13 false).putOut [.res 0x56039A8D#32]) := by decide
theorem test_emit :
    onWord 0x0600000000#40 (engine 0x127#32 0x24D#32 3#13 false) =
      some ((engine 0x127#32 0x24D#32 0#13 false).putOut [.byte 0x02#8, .byte 0x4D#8, .byte 0x01#8, .byte 0x27#8]) := by decide
theorem test_emit_mid_block :
    onWord 0x0600000000#40 (engine 0x00159952#32 0xEA369C07#32 5551#13 false) =
      some ((engine 0x9A8D#32 0x5603#32 0#13 false).putOut [.byte 0x56#8, .byte 0x03#8, .byte 0x9A#8, .byte 0x8D#8]) := by decide

/-! ## Faults and reset (sections 2.8 and 2.9) -/

theorem test_illegal_word :
    onWord 0x0700000000#40 (engine 0xC4#32 0x126#32 2#13 false) = some (engine 0xC4#32 0x126#32 2#13 true) := by decide
theorem test_faulted_init_discarded :
    onWord 0x0100000000#40 (engine 0xC4#32 0x126#32 2#13 true) = some (engine 0xC4#32 0x126#32 2#13 true) := by decide
theorem test_faulted_read_puts_out_nothing :
    onWord 0x0500000000#40 (engine 0xC4#32 0x126#32 2#13 true) = some (engine 0xC4#32 0x126#32 2#13 true) := by decide
theorem test_reset_lifts_the_fault :
    nextOf (step ((engine 0xC4#32 0x126#32 2#13 true).withPending [.reset])) = some State.reset := by decide
theorem test_reset_before_word :
    nextOf (step ((engine 0xC4#32 0x126#32 2#13 true).withPending [.resetAndCommand 0x0500000000#40])) =
      some (State.reset.withPending [.command 0x0500000000#40]) := by decide
theorem test_err_level : errLevel (engine 0xC4#32 0x126#32 2#13 true) = 1#1 ∧ errLevel State.reset = 0#1 := by decide

/-! ## The reference function (sections 2.3, 2.5, 2.7) -/

theorem test_calculate_abc : calculate [0x61#8, 0x62#8, 0x63#8] = 0x024D0127#32 := by decide
theorem test_calculate_Wikipedia :
    calculate [0x57#8, 0x69#8, 0x6B#8, 0x69#8, 0x70#8, 0x65#8, 0x64#8, 0x69#8, 0x61#8] = 0x11E60398#32 := by decide
theorem test_update_greatest_canonical : update 0xFFF0FFF0#32 [0x01#8] = 0xFFF00000#32 := by decide
theorem test_update_non_canonical : update 0xFFF2FFF0#32 [0x00#8] = 0x0000FFF0#32 := by decide

/-! ## The assembler (R44, R45; programs of section 3) -/

theorem test_text_byte : wordsOfText "BYTE 0x61 ; 'a'" = some [0x0300000061#40] := by decide
theorem test_text_seed_decimal : wordsOfText "SEED 4294967295" = some [0x02FFFFFFFF#40] := by decide
theorem test_text_word : wordsOfText "WORD 0x0300000100 ; illegal" = some [0x0300000100#40] := by decide
theorem test_text_calc :
    wordsOfText "CALC \"abc\"" =
      some [0x0100000000#40, 0x0300000061#40, 0x0300000062#40, 0x0300000063#40, 0x0500000000#40] := by decide
theorem test_text_update :
    wordsOfText "UPDATE 0x00620062, [0x62, 0x63]" =
      some [0x0200620062#40, 0x0300000062#40, 0x0300000063#40, 0x0500000000#40] := by decide
theorem test_text_semicolon_in_string : wordsOfText "CHUNK \"a;\" ; two bytes" = some [0x0300000061#40, 0x030000003B#40] := by
  decide
theorem test_text_empty_chunk : wordsOfText "CHUNK []" = some [] := by decide
theorem test_text_comment_only : wordsOfText "  ; nothing" = some [] := by decide
theorem test_text_byte_out_of_range : refusalOfText "BYTE 256" = some .operandOutOfRange := by decide
theorem test_text_two_spaces : refusalOfText "BYTE  1" = some .badOperand := by decide
theorem test_text_missing_operand : refusalOfText "SEED" = some .badOperand := by decide
theorem test_text_lower_case : refusalOfText "nop" = some .unknownMnemonic := by decide
theorem test_listing : listingLine 0x0300000061#40 = "0x0300000061 BYTE 0x61".toList := by decide
theorem test_listing_illegal : listingLine 0x0700000000#40 = "0x0700000000 WORD 0x0700000000".toList := by decide
theorem test_program_text :
    (match assembleText "INIT\nREAD".toList with
      | .ok p => some p
      | .error _ => none) = some [.command 0x0100000000#40, .command 0x0500000000#40] := by decide

/-! ## Witnesses: a state and operands that meet all hypotheses of a statement, and one for each of its clauses -/

/-- An unfaulted engine in mid-block, at the last count before the guard. -/
def midBlock : State := engine 0x00169950#32 0xFFE670A8#32 5551#13 false

/-- A faulted engine. -/
def faulted : State := engine 0xC4#32 0x126#32 2#13 true

theorem witness_EncodeOfDecode : commandOf (decode 0x03000000FF#40) = some (.byte 0xFF#8) := by decide

theorem witness_TableRowsDecideDecoding :
    (opcodeTable.map fun r => r.fits 0x03000000FF#40) = [false, false, false, true, false, false, false] ∧
    0x0700000000 ≤ (0x0700000000#40).toNat := by decide

theorem witness_IllegalWordsAreTheThreeCases :
    midBlock.ERR = false ∧ reasonOf (decode 0x0700000000#40) = some .undefinedOpcode ∧
    reasonOf (decode 0x0000000001#40) = some .operandOfZFormat ∧
    reasonOf (decode 0x0300000100#40) = some .reservedBitsOfByte := by decide

theorem witness_StepRunsDecodedCommand :
    (midBlock.withPending [.command 0x0300000061#40]).pending = .command 0x0300000061#40 :: [] ∧
    commandOf (decode 0x0300000061#40) = some (.byte 0x61#8) ∧ decodeTableWord 40 0x0300000061 = some (.byte 0x61#8) := by
  decide

theorem witness_FaultGateDiscardsEveryWord :
    (faulted.withPending [.command 0x0500000000#40]).ERR = true ∧
    (faulted.withPending [.command 0x0500000000#40]).pending = .command 0x0500000000#40 :: [] := by decide

theorem witness_IdleStepChangesNothing : midBlock.pending = [] := by decide

theorem witness_IllegalCommandEntry :
    (midBlock.withPending [.command 0x0700000000#40, .command 0x0500000000#40]).ERR = false ∧
    (midBlock.withPending [.command 0x0700000000#40, .command 0x0500000000#40]).pending =
      .command 0x0700000000#40 :: [.command 0x0500000000#40] ∧
    reasonOf (decode 0x0700000000#40) = some .undefinedOpcode := by decide

theorem witness_FaultedEngineIsFrozen :
    (faulted.withPending [.command 0x0500000000#40, .reset]).ERR = true ∧
    (faulted.withPending [.command 0x0500000000#40, .reset]).pending = [0x0500000000#40].map .command ++ [.reset] := by decide

theorem witness_ResetEvent :
    (faulted.withPending [.reset]).pending = .reset :: [] ∧ (faulted.withPending [.reset]).ERR = true ∧
    (nextOf (step (faulted.withPending [.reset]))).map State.ERR = some false := by decide

theorem witness_ResetIsOrderedBeforeTheWord :
    (faulted.withPending [.resetAndCommand 0x0500000000#40]).pending = .resetAndCommand 0x0500000000#40 :: [] := by decide

theorem witness_ErrSetByIllegalWordOnly :
    (onWord 0x0700000000#40 midBlock).map State.ERR = some true ∧ midBlock.ERR = false ∧ faulted.ERR = true ∧
    (nextOf (step (faulted.withPending [.reset]))).map State.ERR = some false := by decide

theorem witness_FaultedRunNeverSucceeds :
    faulted.ERR = true ∧ (faulted.withPending [.command 0x0500000000#40]).pending = [.command 0x0500000000#40] ∧
    nextOf (core.run 1 (faulted.withPending [.command 0x0500000000#40])) = some faulted := by decide

theorem witness_RecoveryByReset :
    (faulted.withPending (.reset :: stimuliOf (calcCommands [0x61#8]))).pending =
      .reset :: (stimuliOf (calcCommands [0x61#8]) ++ []) := by decide

/-- For InitResult, SeedResult, ByteResult, FlushResult, ReadResult, EmitResult, EmptyInput, ReadingIsRepeatable,
SaveAndRestore and NonCanonicalSeeds: an unfaulted engine, and a faulted one for their clauses about `ERR = 1`. -/
theorem witness_CommandResults :
    midBlock.ERR = false ∧ State.reset.ERR = false ∧ faulted.ERR = true ∧ canonical 0xFFF0FFF0#32 = true := by decide

/-- Both branches of ByteResult and ByteInEveryState: the guard fires at `CNT = 5551` and not at 5550. -/
theorem witness_ByteResult :
    midBlock.CNT + 1#13 = 5552#13 ∧ (engine 0x00159853#32 0xEA2102B5#32 5550#13 false).CNT + 1#13 ≠ 5552#13 ∧
    (nextOf (exec (.byte 0xFF#8) midBlock)).isSome = true := by decide

/-- The state at `CNT = 5550` of witness_ByteResult is within the bounds; the one at 5551 is by witness_WithinBounds. -/
theorem witness_ByteResult_bounds : WithinBounds (engine 0x00159853#32 0xEA2102B5#32 5550#13 false) :=
  ⟨by decide, by decide, by rw [looseBound_eq]; decide⟩

theorem witness_ReadingIsRepeatable :
    (nextOf (exec .read midBlock)).isSome = true ∧ (nextOf (exec .emit midBlock)).isSome = true := by decide

/-- The clauses of ConditionTransitions, at the counts where they meet. -/
theorem witness_ConditionTransitions :
    condition midBlock = .run ∧ midBlock.CNT.toNat = 5551 ∧ condition State.reset = .start ∧ condition faulted = .fault ∧
    (onWord 0x0300000061#40 midBlock).map condition = some .start ∧
    (onWord 0x0300000061#40 (engine 0x00159853#32 0xEA2102B5#32 5550#13 false)).map condition = some .run ∧
    (onWord 0x0000000000#40 midBlock).map condition = some .run ∧
    (onWord 0x0500000000#40 midBlock).map condition = some .start ∧
    (onWord 0x0700000000#40 midBlock).map condition = some .fault ∧
    (onWord 0x0500000000#40 faulted).map condition = some .fault ∧
    (nextOf (step (faulted.withPending [.reset]))).map condition = some .start := by decide

theorem witness_BlockPositions :
    State.reset.ERR = false ∧ State.reset.CNT = 0#13 ∧
    (State.reset.withPending (stimuliOf (chunkCommands [0x61#8]))).pending =
      stimuliOf (chunkCommands [0x61#8]) ++ [] := by decide

/-- The clause of BlockPositions about the multiples of 5552: a sequence of 5552 bytes is one. -/
theorem witness_BlockPositions_multiple :
    List.replicate 5552 (0xFF#8 : Byte) ≠ [] ∧ (List.replicate 5552 (0xFF#8 : Byte)).length % 5552 = 0 :=
  ⟨List.ne_nil_of_length_pos (by rw [List.length_replicate]; decide), by rw [List.length_replicate]⟩

theorem witness_OutputsAreTheValue :
    (onWord 0x0500000000#40 midBlock).isSome = true ∧ (onWord 0x0600000000#40 midBlock).isSome = true ∧
    (onWord 0x0000000000#40 midBlock).isSome = true := by decide

theorem witness_Frames :
    (nextOf (exec .nop midBlock)).isSome = true ∧ (nextOf (exec .init midBlock)).isSome = true ∧
    (nextOf (exec (.seed 0xFFFFFFFF#32) midBlock)).isSome = true ∧ (nextOf (exec (.byte 0xFF#8) midBlock)).isSome = true ∧
    (nextOf (exec .flush midBlock)).isSome = true ∧ (nextOf (exec .read midBlock)).isSome = true ∧
    (nextOf (exec .emit midBlock)).isSome = true := by decide

/-- For BoundsKeptByEveryStep and AddersNeverCarryOut: the greatest state between steps meets the bounds (trace T3). -/
theorem witness_WithinBounds : WithinBounds midBlock :=
  ⟨by decide, by decide, by rw [looseBound_eq]; decide⟩

theorem witness_BoundsHoldWhenReached :
    nextOf (core.run 1 (presentProgram [.command 0x02FFFFFFFF#40] State.reset)) =
      some (engine 0xFFFF#32 0xFFFF#32 0#13 false) := by decide

/-- For TightBoundsKept: the greatest canonical seed after 5551 bytes of 0xFF (trace T3). -/
theorem witness_TightBoundsKept :
    WithinTightBounds (engine 0x00169941#32 0xFFE52B58#32 5551#13 false) :=
  ⟨by decide, by decide, by rw [tightBound_eq]; decide⟩

/-- The other hypotheses of TightBoundsKept, clause by clause. -/
theorem witness_TightBoundsKept_clauses :
    seedsNonCanonical ((engine 0x00169941#32 0xFFE52B58#32 5551#13 false).withPending [.command 0x03000000FF#40]) = false ∧
    seedsNonCanonical (State.reset.withPending [.command 0x02FFFFFFFF#40]) = true ∧
    canonical 0xFFF0FFF0#32 = true ∧ canonical 0xFFF10000#32 = false ∧ midBlock.CNT = 5551#13 := by decide

/-- With witness_WithinBounds: all hypotheses of StreamComputesAdler. -/
theorem witness_StreamComputesAdler :
    midBlock.ERR = false ∧
    [Instr.byte 0xFF#8, .flush, .read, .nop, .emit].all continuesStream = true ∧
    (midBlock.withPending (stimuliOf [Instr.byte 0xFF#8, .flush, .read, .nop, .emit])).pending =
      stimuliOf [Instr.byte 0xFF#8, .flush, .read, .nop, .emit] ++ [] := by decide

theorem witness_CalcPutsOutCalculate :
    (midBlock.withPending (stimuliOf (calcCommands [0x61#8]))).ERR = false ∧
    (midBlock.withPending (stimuliOf (calcCommands [0x61#8]))).pending = stimuliOf (calcCommands [0x61#8]) ++ [] := by decide

theorem witness_UpdatePutsOutUpdate :
    (midBlock.withPending (stimuliOf (updateCommands 0xFFFFFFFF#32 [0x01#8]))).ERR = false ∧
    (midBlock.withPending (stimuliOf (updateCommands 0xFFFFFFFF#32 [0x01#8]))).pending =
      stimuliOf (updateCommands 0xFFFFFFFF#32 [0x01#8]) ++ [] := by decide

/-- With witness_WithinBounds: all hypotheses of ContContinuesTheStream. -/
theorem witness_ContContinuesTheStream :
    midBlock.ERR = false ∧
    (midBlock.withPending (stimuliOf (contCommands [0x01#8]))).pending = stimuliOf (contCommands [0x01#8]) ++ [] := by decide

theorem witness_OrderSensitivity : [0x01#8, 0x02#8].Perm [0x02#8, 0x01#8] := by decide

/-- Two states with different registers and one value: a seed of both halves 65535 and the congruent canonical one. -/
theorem witness_OutputsDependOnTheValueOnly :
    WithinBounds (engine 0xFFFF#32 0xFFFF#32 0#13 false) ∧ WithinBounds (engine 0xE#32 0xE#32 0#13 false) ∧
    val (engine 0xFFFF#32 0xFFFF#32 0#13 false) = val (engine 0xE#32 0xE#32 0#13 false) :=
  ⟨⟨by decide, by decide, by rw [looseBound_eq]; decide⟩, ⟨by decide, by decide, by rw [looseBound_eq]; decide⟩, by decide⟩

theorem witness_HintsChangeNoOutput : WithinBounds midBlock ∧ (Instr.flush = .nop ∨ Instr.flush = .flush) :=
  ⟨witness_WithinBounds, .inr rfl⟩

/-- The engines after a step of a system, if it has a next state. -/
def enginesOf {nEng : Nat} (o : Host.Outcome (System nEng) Fault Refusal) : Option (List State) :=
  match o with
  | .next y => some y.engines.toList
  | _ => none

/-- Two engines, one of which takes a word. -/
theorem witness_EnginesAreIndependent :
    (1 : Fin 2) ≠ 0 ∧
    enginesOf (stepEngine 0 (replaceEngine (systemReset 2) 0 (State.reset.withPending [.command 0x0300000061#40]))) =
      some [engine 0x62#32 0x62#32 1#13 false, State.reset] ∧
    [(0 : Fin 2), 1].Perm [1, 0] := by decide

theorem witness_AssemblerNeverTruncates :
    (SourceLine.byte 256).wellFormed = false ∧ (SourceLine.calc [97]).wellFormed = true ∧
    wordsOfText "CALC [97]" = some [0x0100000000#40, 0x0300000061#40, 0x0500000000#40] := by decide

end Sys2Proof.Tests
end

section
/-! PROOFS. The block size of spec/00_scope.md R7. -/

namespace Sys2Proof.Config

/-- A longer block has a greater bound, so the sizes that fit a width are an initial segment. -/
theorem blockBound_mono : Monotone blockBound := by
  intro m n h
  unfold blockBound
  gcongr

/-- By monotonicity, one size that fits and whose successor does not is the block size. -/
theorem isBlockSize_of_succ_exceeds {w n : Nat} (hfits : blockBound n ≤ 2 ^ w - 1)
    (hexceeds : 2 ^ w - 1 < blockBound (n + 1)) : IsBlockSize w n := by
  refine ⟨hfits, fun m hm => ?_⟩
  by_contra hlt
  have hle : blockBound (n + 1) ≤ blockBound m := blockBound_mono (Nat.lt_of_not_le hlt)
  exact absurd hm (Nat.not_le_of_lt (hexceeds.trans_le hle))

end Sys2Proof.Config

namespace Sys2Proof.Machine

/-- Settles O39: the bound is 4294690200 at 5552 bytes and 4296171735 at 5553, on either side of `2 ^ 32 - 1`. -/
theorem blockSizeIsTheLargest : Obligations.BlockSizeIsTheLargest := by
  have hfits : Config.blockBound 5552 = 4294690200 := rfl
  have hexceeds : Config.blockBound 5553 = 4296171735 := rfl
  exact Config.isBlockSize_of_succ_exceeds
    (show Config.blockBound 5552 ≤ 2 ^ 32 - 1 by rw [hfits]; decide)
    (show 2 ^ 32 - 1 < Config.blockBound 5553 by rw [hexceeds]; decide)

end Sys2Proof.Machine
end

section
/-! PROOFS. The bounds of spec/10_state.md R22, loose and tight, as one invariant of the step: `c` is the greatest value an
accumulator can hold at the start of a block, 65535 after any seed and 65520 after a reduction or a canonical seed. -/

namespace Sys2Proof.Machine

/-- The bound on `B` after `n` bytes of a block that starts with both accumulators at most `c`. -/
def boundFrom (c n : Nat) : Nat := c * (n + 1) + 255 * n * (n + 1) / 2

/-- The bounds of R22 for blocks that start with both accumulators at most `c`. -/
def SumsWithin (c : Nat) (s : State) : Prop :=
  s.CNT.toNat ≤ 5551 ∧ s.A.toNat ≤ c + 255 * s.CNT.toNat ∧ s.B.toNat ≤ boundFrom c s.CNT.toNat

theorem withinBounds_iff {s : State} : WithinBounds s ↔ SumsWithin 65535 s := by
  rw [WithinBounds, looseBound_eq]
  rfl

theorem withinTightBounds_iff {s : State} : WithinTightBounds s ↔ SumsWithin 65520 s := by
  rw [WithinTightBounds, tightBound_eq]
  rfl

theorem boundFrom_zero (c : Nat) : boundFrom c 0 = c := by
  simp [boundFrom]

/-- One more byte adds the greatest `a` there can be after it. -/
theorem boundFrom_succ (c n : Nat) : boundFrom c (n + 1) = boundFrom c n + (c + 255 * (n + 1)) := by
  rw [boundFrom, boundFrom, half_square_step]
  ring

theorem boundFrom_le_looseBound {c : Nat} (hc : c ≤ 65535) (n : Nat) : boundFrom c n ≤ looseBound n := by
  rw [boundFrom, looseBound_eq]
  gcongr

/-- A seed that keeps the bounds from `c`: both halves are at most `c`. -/
def SeedWithin (c : Nat) (p : Word) : Prop := (lo16 p).toNat ≤ c ∧ (hi16 p).toNat ≤ c

theorem seedWithin_loose (p : Word) : SeedWithin 65535 p :=
  ⟨Nat.le_of_lt_succ (lo16 p).isLt, Nat.le_of_lt_succ (hi16 p).isLt⟩

theorem seedWithin_tight_iff {p : Word} : SeedWithin 65520 p ↔ canonical p = true := by
  rw [SeedWithin, canonical, Bool.and_eq_true, decide_eq_true_iff, decide_eq_true_iff, Config.M]
  omega

/-! ### The clearing operations establish the bounds -/

/-- At the start of a block the bounds say that both accumulators are at most `c`. -/
theorem sumsWithin_of_CNT_zero {c : Nat} {s : State} (hn : s.CNT = 0#13) (hA : s.A.toNat ≤ c) (hB : s.B.toNat ≤ c) :
    SumsWithin c s := by
  have h0 : s.CNT.toNat = 0 := by rw [hn]; rfl
  refine ⟨by omega, by omega, ?_⟩
  rwa [h0, boundFrom_zero]

theorem reduce_sumsWithin {c : Nat} (hc : 65520 ≤ c) (s : State) : SumsWithin c (reduce s) :=
  have modM_le (v : Word) : (modM v).toNat ≤ c := (Nat.le_pred_of_lt (modM_lt v)).trans hc
  sumsWithin_of_CNT_zero (reduce_CNT s) (modM_le s.A) (modM_le s.B)

theorem loadIdentity_sumsWithin {c : Nat} (hc : 65520 ≤ c) (s : State) : SumsWithin c (loadIdentity s) :=
  sumsWithin_of_CNT_zero rfl (show 1 ≤ c by omega) (Nat.zero_le c)

theorem loadHalves_sumsWithin {c : Nat} {p : Word} (hp : SeedWithin c p) (s : State) : SumsWithin c (loadHalves p s) :=
  sumsWithin_of_CNT_zero rfl ((zextHalf_toNat _).trans_le hp.1) ((zextHalf_toNat _).trans_le hp.2)

theorem resetEngine_sumsWithin {c : Nat} (hc : 65520 ≤ c) (s : State) : SumsWithin c (resetEngine s) :=
  loadIdentity_sumsWithin hc s

/-! ### BYTE keeps the bounds -/

/-- The sums BYTE forms are within the bounds for one byte more. -/
theorem SumsWithin.sums_le {c : Nat} {s : State} (h : SumsWithin c s) (x : Byte) :
    s.A.toNat + x.toNat ≤ c + 255 * (s.CNT.toNat + 1) ∧
    s.B.toNat + (s.A.toNat + x.toNat) ≤ boundFrom c (s.CNT.toNat + 1) := by
  obtain ⟨-, hA, hB⟩ := h
  have hx := x.isLt
  rw [boundFrom_succ]
  omega

/-- Within the bounds the sums of BYTE are at most the bounds at 5552 bytes (R55). -/
theorem WithinBounds.sums_le {s : State} (h : WithinBounds s) (x : Byte) :
    s.A.toNat + x.toNat ≤ 1481295 ∧ s.B.toNat + (s.A.toNat + x.toNat) ≤ 4294773495 := by
  obtain ⟨hA, hB⟩ := (withinBounds_iff.mp h).sums_le x
  have hn : s.CNT.toNat ≤ 5551 := h.1
  have hmax : boundFrom 65535 (s.CNT.toNat + 1) ≤ looseBound 5552 :=
    (boundFrom_le_looseBound le_rfl _).trans (looseBound_mono (by omega))
  rw [looseBound_5552] at hmax
  omega

/-- Within the bounds the adder of `A` does not carry out. -/
theorem absorb_A_toNat {s : State} (h : WithinBounds s) (x : Byte) :
    (absorb x s).A.toNat = s.A.toNat + x.toNat := by
  have hsum := (h.sums_le x).1
  rw [absorb, State.withSums_A, BitVec.toNat_add, zextByte_toNat]
  exact Nat.mod_eq_of_lt (by omega)

/-- Within the bounds the adder of `B` does not carry out. -/
theorem absorb_B_toNat {s : State} (h : WithinBounds s) (x : Byte) :
    (absorb x s).B.toNat = s.B.toNat + (s.A.toNat + x.toNat) := by
  have hsum := (h.sums_le x).2
  have hA : (s.A + zextByte x).toNat = s.A.toNat + x.toNat := absorb_A_toNat h x
  rw [absorb, State.withSums_B, BitVec.toNat_add, hA]
  exact Nat.mod_eq_of_lt (by omega)

/-- Tighter bounds imply the loose ones. -/
theorem SumsWithin.withinBounds {c : Nat} {s : State} (hc : c ≤ 65535) (h : SumsWithin c s) : WithinBounds s := by
  obtain ⟨hn, hA, hB⟩ := h
  exact ⟨hn, by omega, hB.trans (boundFrom_le_looseBound hc _)⟩

theorem blockGuard_of_full {s : State} (h : s.CNT.toNat = Config.NMAX) : blockGuard s = reduce s := if_pos h

theorem blockGuard_of_open {s : State} (h : s.CNT.toNat ≠ Config.NMAX) : blockGuard s = s := if_neg h

/-- BYTE at the last count of a block ends within the bounds from whatever sums, since the guard reduces them. -/
theorem blockGuard_absorb_sumsWithin_of_last {c : Nat} {s : State} (hc : 65520 ≤ c) (x : Byte)
    (hn : s.CNT.toNat = 5551) : SumsWithin c (blockGuard (absorb x s)) := by
  have hcount : (absorb x s).CNT.toNat = Config.NMAX := (absorb_CNT x hn.le).trans (by rw [hn]; rfl)
  rw [blockGuard_of_full hcount]
  exact reduce_sumsWithin hc _

/-- BYTE keeps the bounds: below the last count the sums grow as the bounds do, and at the last count the guard reduces. -/
theorem blockGuard_absorb_sumsWithin {c : Nat} {s : State} (hc : 65520 ≤ c) (hc' : c ≤ 65535) (x : Byte)
    (h : SumsWithin c s) : SumsWithin c (blockGuard (absorb x s)) := by
  have hn : s.CNT.toNat ≤ 5551 := h.1
  obtain hlt | hlast := Nat.lt_or_eq_of_le hn
  · have hcount := absorb_CNT x hn
    have hopen : (absorb x s).CNT.toNat ≠ Config.NMAX := by rw [hcount, Config.NMAX]; omega
    have hb := h.withinBounds hc'
    rw [blockGuard_of_open hopen, SumsWithin, absorb_A_toNat hb, absorb_B_toNat hb, hcount]
    exact ⟨hlt, h.sums_le x⟩
  · exact blockGuard_absorb_sumsWithin_of_last hc x hlast

/-! ### Every step keeps the bounds -/

theorem effect_sumsWithin {c : Nat} {s : State} (hc : 65520 ≤ c) (hc' : c ≤ 65535) (i : Instr)
    (hseed : ∀ p, i = .seed p → SeedWithin c p) (h : SumsWithin c s) : SumsWithin c (effect i s) := by
  cases i with
  | nop => exact h
  | init => exact loadIdentity_sumsWithin hc s
  | seed p => exact loadHalves_sumsWithin (hseed p rfl) s
  | byte x => exact blockGuard_absorb_sumsWithin hc hc' x h
  | flush | read | emit => exact reduce_sumsWithin hc s

/-- The step lemma behind both invariants: a step keeps the bounds from `c` unless it seeds a half above `c`. -/
theorem step_sumsWithin {c : Nat} {s t : State} (hc : 65520 ≤ c) (hc' : c ≤ 65535)
    (hseed : ∀ cw rest p, s.ERR = false → s.pending = .command cw :: rest → decode cw = .ok (.seed p) → SeedWithin c p)
    (h : SumsWithin c s) (hst : step s = .next t) : SumsWithin c t := by
  obtain ⟨-, rfl⟩ | ⟨cw, rest, -, -, rfl⟩ | ⟨cw, rest, i, hp, he, hd, rfl⟩ | ⟨cw, rest, e, -, -, -, rfl⟩ |
    ⟨rest, -, rfl⟩ | ⟨cw, rest, -, rfl⟩ := step_cases hst
  · exact h
  · exact h
  · exact effect_sumsWithin (s := s.withPending rest) hc hc' i (fun p hi => hseed cw rest p he hp (hi ▸ hd)) h
  · exact h
  · exact resetEngine_sumsWithin hc _
  · exact resetEngine_sumsWithin hc _

/-- Settles O34: every seed has halves of at most 65535, so every step keeps the bounds from 65535. -/
theorem boundsKeptByEveryStep : Obligations.BoundsKeptByEveryStep := by
  intro s t h hst
  rw [withinBounds_iff] at h ⊢
  exact step_sumsWithin (by decide) le_rfl (fun _ _ p _ _ _ => seedWithin_loose p) h hst

/-- Settles O35: the state after reset is what a reset event leaves. -/
theorem boundsHoldAtReset : Obligations.BoundsHoldAtReset :=
  ⟨withinBounds_iff.mpr (resetEngine_sumsWithin (by decide) State.reset),
    withinTightBounds_iff.mpr (resetEngine_sumsWithin le_rfl State.reset), by decide⟩

/-! ### The bounds along a run -/

/-- What every step keeps, every run keeps. -/
theorem run_invariant {P : State → Prop} (hstep : ∀ s t, P s → step s = .next t → P t) {k : Nat} {s t : State}
    (hs : P s) (hrun : core.run k s = .next t) : P t := by
  induction k generalizing s with
  | zero =>
    cases hrun
    exact hs
  | succ k ih =>
    rw [run_succ] at hrun
    exact ih (hstep s _ hs (step_eq s)) hrun

/-- The greatest values of the accumulators between steps (R22). -/
theorem WithinBounds.accumulators_le {s : State} (h : WithinBounds s) :
    s.A.toNat ≤ 1481040 ∧ s.B.toNat ≤ 4293292200 := by
  obtain ⟨hn, hA, hB⟩ := h
  exact ⟨by omega, hB.trans ((looseBound_mono hn).trans_eq looseBound_5551)⟩

/-- Settles O36: the bounds hold at reset, whatever program is presented, and every step keeps them. -/
theorem boundsHoldWhenReached : Obligations.BoundsHoldWhenReached := by
  intro program k t hrun
  have hstart : WithinBounds (presentProgram program State.reset) := boundsHoldAtReset.1
  have ht : WithinBounds t := run_invariant boundsKeptByEveryStep hstart hrun
  exact ⟨ht, ht.accumulators_le⟩

/-! ### The tighter bounds -/

/-- Where the host does not seed a non-canonical value next, the seed it presents, if any, is canonical. -/
theorem canonical_of_not_seedsNonCanonical {s : State} {cw : CommandWord} {rest : List Stimulus} {p : Word}
    (hs : seedsNonCanonical s = false) (hp : s.pending = .command cw :: rest) (hd : decode cw = .ok (.seed p)) :
    canonical p = true := by
  simpa [seedsNonCanonical, hp, hd] using hs

theorem step_withinTightBounds {s t : State} (h : WithinTightBounds s)
    (hs : s.ERR = false → seedsNonCanonical s = false) (hst : step s = .next t) : WithinTightBounds t := by
  rw [withinTightBounds_iff] at h ⊢
  exact step_sumsWithin le_rfl (by decide)
    (fun _ _ _ he hp hd => seedWithin_tight_iff.mpr (canonical_of_not_seedsNonCanonical (hs he) hp hd)) h hst

/-- On an unfaulted engine a command answers its effect. -/
theorem eq_effect_of_exec {s t : State} {i : Instr} (he : s.ERR = false) (h : exec i s = .next t) : t = effect i s := by
  rw [exec_eq_gate, gate_unfaulted _ he] at h
  cases h
  rfl

/-- Settles O37: the step lemma for 65520, and for each clearing command the operation that establishes the bounds. -/
theorem tightBoundsKept : Obligations.TightBoundsKept := by
  refine ⟨fun s t => step_withinTightBounds, fun s t i he hex hi => ?_⟩
  rw [withinTightBounds_iff, eq_effect_of_exec he hex]
  obtain rfl | ⟨p, hp, rfl⟩ | rfl | rfl | rfl | ⟨x, hn, rfl⟩ := hi
  · exact loadIdentity_sumsWithin le_rfl s
  · exact loadHalves_sumsWithin (seedWithin_tight_iff.mpr hp) s
  · exact reduce_sumsWithin le_rfl s
  · exact reduce_sumsWithin le_rfl s
  · exact reduce_sumsWithin le_rfl s
  · exact blockGuard_absorb_sumsWithin_of_last le_rfl x (by rw [hn]; rfl)

end Sys2Proof.Machine
end

section
/-! PROOFS. Value and outputs: what each command does to the value of the state (spec/10_state.md R23) and what it puts out,
as functions of that value alone, and from this that no output depends on the hidden state (R21, R42, R56). -/

namespace Sys2Proof.Machine

/-- Values are equal exactly when the accumulators are congruent modulo `M`. -/
theorem val_eq_iff {s t : State} :
    val s = val t ↔ s.A.toNat % Config.M = t.A.toNat % Config.M ∧ s.B.toNat % Config.M = t.B.toNat % Config.M := by
  refine ⟨fun h => ⟨?_, ?_⟩, fun ⟨hA, hB⟩ => packMod_congr hA hB⟩
  · rw [← lo16_packMod s.A.toNat s.B.toNat, ← lo16_packMod t.A.toNat t.B.toNat]
    exact congrArg (fun v => (lo16 v).toNat) h
  · rw [← hi16_packMod s.A.toNat s.B.toNat, ← hi16_packMod t.A.toNat t.B.toNat]
    exact congrArg (fun v => (hi16 v).toNat) h

theorem canonical_packMod (a b : Nat) : canonical (packMod a b) = true := by
  rw [canonical, lo16_packMod, hi16_packMod]
  simp [Nat.mod_lt, Config.M]

theorem canonical_val (s : State) : canonical (val s) = true :=
  canonical_packMod _ _

theorem val_reduce (s : State) : val (reduce s) = val s := by
  rw [val_eq_iff, reduce_A, reduce_B, modM_toNat, modM_toNat, Nat.mod_mod, Nat.mod_mod]
  exact ⟨rfl, rfl⟩

/-- The guard of a block shows nowhere in the value (R53, R56). -/
theorem val_blockGuard (s : State) : val (blockGuard s) = val s := by
  obtain ⟨-, h⟩ | ⟨-, h⟩ := blockGuard_cases s
  · rw [h, val_reduce]
  · rw [h]

theorem val_loadIdentity (s : State) : val (loadIdentity s) = Config.INIT_VALUE :=
  show packMod 1 0 = Config.INIT_VALUE by decide

theorem val_loadHalves (p : Word) (s : State) : val (loadHalves p s) = canonicalOf p := by
  rw [val, loadHalves, State.withSums_A, State.withSums_B, zextHalf_toNat, zextHalf_toNat, canonicalOf]

/-- The per-byte reference on one byte. -/
theorem adler_singleton (a b : Nat) (x : Byte) :
    adler a b [x] = packMod (a % Config.M + x.toNat) (b % Config.M + (a % Config.M + x.toNat) % Config.M) := rfl

/-- Within the bounds, absorbing a byte takes the value to the reference over that byte. -/
theorem val_absorb {s : State} (h : WithinBounds s) (x : Byte) : val (absorb x s) = update (val s) [x] := by
  rw [val, absorb_A_toNat h, absorb_B_toNat h, update, val, lo16_packMod, hi16_packMod, adler_singleton]
  exact packMod_congr (by simp) (by simp [Nat.add_mod])

/-- The value after a command, from the value before it. -/
def valueAfter : Instr → Word → Word
  | .init, _ => Config.INIT_VALUE
  | .seed p, _ => canonicalOf p
  | .byte x, v => update v [x]
  | _, v => v

/-- What a command puts out, from the value before it. -/
def outputsOf : Instr → Word → List OutEvent
  | .read, v => [.res v]
  | .emit, v => (be32 v).map .byte
  | _, _ => []

/-- NOP, FLUSH, READ and EMIT keep the value, in every state. -/
theorem val_effect_of_hint_or_output {i : Instr} (hi : i = .nop ∨ i = .flush ∨ i = .read ∨ i = .emit) (s : State) :
    val (effect i s) = val s := by
  obtain rfl | rfl | rfl | rfl := hi
  · rfl
  all_goals exact val_reduce s

theorem val_effect {s : State} (h : WithinBounds s) (i : Instr) : val (effect i s) = valueAfter i (val s) := by
  cases i with
  | nop => rfl
  | init => exact val_loadIdentity s
  | seed p => exact val_loadHalves p s
  | byte x => exact (val_blockGuard _).trans (val_absorb h x)
  | flush | read | emit => exact val_reduce s

theorem effect_trace (i : Instr) (s : State) : (effect i s).trace = s.trace ++ outputsOf i (val s) := by
  cases i with
  | nop | init | seed | flush => exact (List.append_nil _).symm
  | byte x => exact (blockGuard_trace _).trans (List.append_nil _).symm
  | read => rw [effect, putRes, State.putOut_trace, packed_reduce, reduce_trace, outputsOf]
  | emit => rw [effect, putBytes, State.putOut_trace, packed_reduce, reduce_trace, outputsOf]

/-- Settles O29: of all steps only the effect of a command touches the trace, and `outputsOf` is empty but for READ, EMIT. -/
theorem outputsAreTheValue : Obligations.OutputsAreTheValue := by
  intro s t hst
  refine ⟨canonical_val s, ?_⟩
  obtain ⟨-, rfl⟩ | ⟨cw, rest, -, -, rfl⟩ | ⟨cw, rest, i, hp, he, hd, rfl⟩ | ⟨cw, rest, e, -, -, -, rfl⟩ |
    ⟨rest, -, rfl⟩ | ⟨cw, rest, -, rfl⟩ := step_cases hst
  case inr.inr.inl =>
    have htrace : (effect i (s.withPending rest)).trace = s.trace ++ outputsOf i (val s) :=
      effect_trace i (s.withPending rest)
    cases i with
    | read => exact .inr ⟨he, cw, rest, hp, .inl ⟨hd, htrace⟩⟩
    | emit => exact .inr ⟨he, cw, rest, hp, .inr ⟨hd, htrace⟩⟩
    | nop | init | seed | byte | flush => exact .inl (htrace.trans (List.append_nil _))
  all_goals exact .inl rfl

/-- Settles O33: behind the fault gate the state stays, and the effects of the four commands keep the value. -/
theorem hintsAndReadsKeepTheValue : Obligations.HintsAndReadsKeepTheValue := by
  intro s t i hi hex
  cases he : s.ERR with
  | true =>
    rw [exec_eq_gate, gate_faulted _ he] at hex
    cases hex
    rfl
  | false =>
    rw [eq_effect_of_exec he hex]
    exact val_effect_of_hint_or_output hi s

/-! ### Agreement on what can be seen is a bisimulation -/

/-- The two states agree on everything but the registers' hidden part: they have the same value, fault flag, host's list and
output events. -/
structure Indistinguishable (s s' : State) : Prop where
  val_eq : val s = val s'
  err_eq : s.ERR = s'.ERR
  pending_eq : s.pending = s'.pending
  trace_eq : s.trace = s'.trace

namespace Indistinguishable

variable {s s' : State}

theorem withPending_congr (h : Indistinguishable s s') (p : List Stimulus) :
    Indistinguishable (s.withPending p) (s'.withPending p) :=
  ⟨h.val_eq, h.err_eq, rfl, h.trace_eq⟩

theorem takeIllegalCommand_congr (h : Indistinguishable s s') :
    Indistinguishable (takeIllegalCommand s) (takeIllegalCommand s') :=
  ⟨h.val_eq, rfl, h.pending_eq, h.trace_eq⟩

theorem resetEngine_congr (h : Indistinguishable s s') : Indistinguishable (resetEngine s) (resetEngine s') :=
  ⟨rfl, rfl, h.pending_eq, h.trace_eq⟩

theorem effect_congr (h : Indistinguishable s s') (hs : WithinBounds s) (hs' : WithinBounds s') (i : Instr) :
    Indistinguishable (effect i s) (effect i s') where
  val_eq := by rw [val_effect hs, val_effect hs', h.val_eq]
  err_eq := by rw [effect_ERR, effect_ERR, h.err_eq]
  pending_eq := by rw [effect_pending, effect_pending, h.pending_eq]
  trace_eq := by rw [effect_trace, effect_trace, h.trace_eq, h.val_eq]

theorem afterWord_congr (h : Indistinguishable s s') (hs : WithinBounds s) (hs' : WithinBounds s') (cw : CommandWord) :
    Indistinguishable (afterWord cw s) (afterWord cw s') := by
  cases he : s.ERR with
  | true =>
    rw [afterWord, afterWord, gate_faulted _ he, gate_faulted _ (h.err_eq ▸ he)]
    exact h
  | false =>
    rw [afterWord, afterWord, gate_unfaulted _ he, gate_unfaulted _ (h.err_eq ▸ he)]
    cases decode cw with
    | ok i => exact h.effect_congr hs hs' i
    | error e => exact h.takeIllegalCommand_congr

theorem afterStimulus_congr (h : Indistinguishable s s') (hs : WithinBounds s) (hs' : WithinBounds s') :
    Indistinguishable (afterStimulus s) (afterStimulus s') := by
  rw [afterStimulus, afterStimulus, ← h.pending_eq]
  match s.pending with
  | [] => exact h
  | .command cw :: rest => exact (h.withPending_congr rest).afterWord_congr hs hs' cw
  | .reset :: rest => exact (h.withPending_congr rest).resetEngine_congr
  | .resetAndCommand cw :: rest => exact (h.withPending_congr (.command cw :: rest)).resetEngine_congr

theorem run_congr (h : Indistinguishable s s') (hs : WithinBounds s) (hs' : WithinBounds s') (k : Nat) :
    ∃ t t', core.run k s = .next t ∧ core.run k s' = .next t' ∧ Indistinguishable t t' := by
  induction k generalizing s s' with
  | zero => exact ⟨s, s', rfl, rfl, h⟩
  | succ k ih =>
    rw [run_succ, run_succ]
    exact ih (h.afterStimulus_congr hs hs') (boundsKeptByEveryStep s _ hs (step_eq s))
      (boundsKeptByEveryStep s' _ hs' (step_eq s'))

end Indistinguishable

/-- Settles O51: states that cannot be told apart stay so along every run. -/
theorem outputsDependOnTheValueOnly : Obligations.OutputsDependOnTheValueOnly := by
  intro k s s' hs hs' hval herr hpending htrace
  obtain ⟨t, t', hrun, hrun', h⟩ := Indistinguishable.run_congr ⟨hval, herr, hpending, htrace⟩ hs hs' k
  exact ⟨t, t', hrun, hrun', h.val_eq, h.err_eq, h.pending_eq, h.trace_eq⟩

end Sys2Proof.Machine
end

section
/-! PROOFS. The serial form of a value (spec/20_memory.md R28), and systems of several engines, whose steps commute
(spec/20_memory.md R33, spec/60_exceptions.md R85). -/

namespace Sys2Proof.Machine

/-! ### The serial form -/

/-- The byte of a word from bit `k` up is a digit of its value. -/
theorem extractByte_toNat (v : Word) (k : Nat) : (v.extractLsb' k 8).toNat = v.toNat / 2 ^ k % 256 := by
  rw [BitVec.extractLsb'_toNat, Nat.shiftRight_eq_div_pow]

/-- The digits of `be32` to the base 256, the first the most significant, are the word. -/
theorem be32_digits (v : Word) : (be32 v).foldl (fun acc b => acc * 256 + b.toNat) 0 = v.toNat := by
  have hv := v.isLt
  simp only [be32, List.foldl_cons, List.foldl_nil, extractByte_toNat]
  omega

/-- Settles O28: the bytes are the word's digits to the base 256. -/
theorem serialFormIsBigEndian : Obligations.SerialFormIsBigEndian :=
  ⟨fun v => ⟨rfl, be32_digits v⟩, by decide⟩

/-! ### Engines side by side -/

section
variable {nEng : Nat}

/-- The system after a step of engine `k`. -/
def afterTurn (y : System nEng) (k : Fin nEng) : System nEng :=
  replaceEngine y k (afterStimulus y.engines[k])

theorem stepEngine_eq (k : Fin nEng) (y : System nEng) : stepEngine k y = .next (afterTurn y k) := by
  rw [stepEngine, step_eq, afterTurn]

/-- A schedule always answers a next system: the turns of its engines, one after another. -/
theorem runSchedule_eq (ks : List (Fin nEng)) (y : System nEng) : runSchedule ks y = .next (ks.foldl afterTurn y) := by
  induction ks generalizing y with
  | nil => rfl
  | cons k ks ih =>
    rw [runSchedule, stepEngine_eq, List.foldl_cons]
    exact ih (afterTurn y k)

/-- Replacing one engine leaves every other as it was. -/
theorem replaceEngine_engines_of_ne {j k : Fin nEng} (h : j ≠ k) (y : System nEng) (t : State) :
    (replaceEngine y k t).engines[j] = y.engines[j] :=
  Vector.getElem_set_ne k.isLt j.isLt (Fin.val_ne_of_ne h.symm)

theorem replaceEngine_comm {j k : Fin nEng} (h : j ≠ k) (y : System nEng) (t u : State) :
    replaceEngine (replaceEngine y j t) k u = replaceEngine (replaceEngine y k u) j t :=
  congrArg System.mk (Vector.set_comm t u (Fin.val_ne_of_ne h))

/-- The turns of two engines commute: neither reads or writes what the other does. -/
theorem afterTurn_comm (y : System nEng) (j k : Fin nEng) :
    afterTurn (afterTurn y j) k = afterTurn (afterTurn y k) j := by
  obtain rfl | h := eq_or_ne j k
  · rfl
  · have hk : (afterTurn y j).engines[k] = y.engines[k] := replaceEngine_engines_of_ne h.symm y _
    have hj : (afterTurn y k).engines[j] = y.engines[j] := replaceEngine_engines_of_ne h y _
    rw [afterTurn, afterTurn.eq_def (afterTurn y k), hk, hj]
    exact replaceEngine_comm h y _ _

/-- Schedules with the same turns, in whatever order, end in the same system. -/
theorem foldl_afterTurn_perm {ks ks' : List (Fin nEng)} (h : ks.Perm ks') (y : System nEng) :
    ks.foldl afterTurn y = ks'.foldl afterTurn y :=
  h.foldl_eq (rcomm := ⟨afterTurn_comm⟩) y

theorem systemReset_engines (k : Fin nEng) : (systemReset nEng).engines[k] = State.reset :=
  Vector.getElem_replicate k.isLt

end

/-- Settles O53: a turn replaces one engine only, and turns commute. -/
theorem enginesAreIndependent : Obligations.EnginesAreIndependent := by
  intro nEng y
  refine ⟨fun k j z hne hz => ?_, systemReset_engines, fun ks ks' hperm => ?_⟩
  · rw [stepEngine_eq] at hz
    cases hz
    exact replaceEngine_engines_of_ne hne y _
  · refine ⟨ks.foldl afterTurn y, runSchedule_eq ks y, ?_⟩
    rw [runSchedule_eq, foldl_afterTurn_perm hperm]

end Sys2Proof.Machine
end

section
/-! PROOFS. The decoder and the encoder are inverse to each other (spec/30_encoding.md R37 to R40), and from this the opcode
map, the illegal words and the number of legal ones (R39 to R41). -/

namespace Sys2Proof

/-- The operand field that BYTE gives a byte has nothing in its reserved bits, and the byte is read back from it. -/
theorem decodeB_setWidth (x : Byte) : decodeB (x.setWidth 32) = .ok (.byte x) := by
  have hx := x.isLt
  have hreserved : (x.setWidth 32).extractLsb' 8 24 = 0#24 := by
    apply BitVec.eq_of_toNat_eq
    simp only [BitVec.extractLsb'_toNat, BitVec.toNat_setWidth, BitVec.toNat_ofNat, Nat.shiftRight_eq_div_pow]
    omega
  rw [decodeB, if_pos hreserved, BitVec.extractLsb'_setWidth_of_le (by decide), BitVec.extractLsb'_eq_self]

/-- An operand field without reserved bits is the one BYTE gives to its low byte. -/
theorem setWidth_extract_of_reserved_zero {imm : Word} (h : imm.extractLsb' 8 24 = 0#24) :
    (imm.extractLsb' 0 8).setWidth 32 = imm := by
  have himm := imm.isLt
  have hreserved := congrArg BitVec.toNat h
  apply BitVec.eq_of_toNat_eq
  simp only [BitVec.extractLsb'_toNat, BitVec.toNat_setWidth, BitVec.toNat_ofNat, Nat.shiftRight_eq_div_pow]
    at hreserved ⊢
  omega

/-- What the B format decodes to. -/
theorem decodeB_ok_iff {imm : Word} {i : Instr} :
    decodeB imm = .ok i ↔ ∃ x : Byte, imm = x.setWidth 32 ∧ .byte x = i := by
  constructor
  · intro h
    rw [decodeB] at h
    split at h
    case isTrue hreserved =>
      cases h
      exact ⟨_, (setWidth_extract_of_reserved_zero hreserved).symm, rfl⟩
    case isFalse => cases h
  · rintro ⟨x, rfl, rfl⟩
    exact decodeB_setWidth x

theorem decode_encode (i : Instr) : decode (encode i) = .ok i := by
  cases i with
  | seed p => simp [encode, decode]
  | byte x => simp [encode, decode, decodeB_setWidth]
  | nop | init | flush | read | emit => rfl

/-- A Z-format opcode decodes to the command of that opcode only. -/
theorem encode_of_decodeZ {i j : Instr} {op : BitVec 8} {imm : Word} (hi : encode i = commandWord op 0#32)
    (h : decodeZ i imm = .ok j) : encode j = commandWord op imm := by
  obtain ⟨rfl, rfl⟩ := decodeZ_ok_iff.mp h
  exact hi

theorem encode_of_decode {cw : CommandWord} {i : Instr} (h : decode cw = .ok i) : encode i = cw := by
  rw [decode] at h
  rw [← commandWord_fields cw]
  split_ifs at h with hnop hinit hseed hbyte hflush hread hemit
  · rw [hnop]; exact encode_of_decodeZ rfl h
  · rw [hinit]; exact encode_of_decodeZ rfl h
  · cases h
    rw [hseed, encode]
  · obtain ⟨x, himm, rfl⟩ := decodeB_ok_iff.mp h
    rw [hbyte, himm, encode]
  · rw [hflush]; exact encode_of_decodeZ rfl h
  · rw [hread]; exact encode_of_decodeZ rfl h
  · rw [hemit]; exact encode_of_decodeZ rfl h

/-- The legal words are the words of the commands, each of the one it decodes to (R40). -/
theorem decode_eq_ok_iff {cw : CommandWord} {i : Instr} : decode cw = .ok i ↔ encode i = cw :=
  ⟨encode_of_decode, fun h => h ▸ decode_encode i⟩

theorem encode_injective : Function.Injective encode := fun i j h =>
  Except.ok.inj <| (decode_encode i).symm.trans <| (congrArg decode h).trans (decode_encode j)

/-- Settles O2: by cases on the command, its fields read back from its word. -/
theorem decodeOfEncode : Obligations.DecodeOfEncode :=
  decode_encode

/-- Settles O3: each branch of the decoder that answers a command has fixed every bit of the word. -/
theorem encodeOfDecode : Obligations.EncodeOfDecode :=
  fun _ _ => encode_of_decode

/-- Settles O1: the legal words are the commands' own, and the three others end in the three refusals. -/
theorem sampleWordsDecode : Obligations.SampleWordsDecode :=
  ⟨decode_encode .nop, decode_encode .init, decode_encode (.seed 0x024D0127#32), decode_encode (.byte 0x61#8),
    decode_encode (.byte 0xFF#8), decode_encode .flush, decode_encode .read, decode_encode .emit, rfl, rfl, rfl⟩

/-! ### The illegal words -/

theorem illegal_iff_not_legal {cw : CommandWord} : (∃ e, decode cw = .error e) ↔ ¬ ∃ i, decode cw = .ok i := by
  cases decode cw <;> simp

/-- The legal words, read off the word as a number. -/
theorem legal_iff (cw : CommandWord) :
    (∃ i, decode cw = .ok i) ↔
      (cw.toNat / 2 ^ 32 ∈ [0, 1, 4, 5, 6] ∧ cw.toNat % 2 ^ 32 = 0) ∨
      (cw.toNat / 2 ^ 32 = 2) ∨
      (cw.toNat / 2 ^ 32 = 3 ∧ cw.toNat % 2 ^ 32 / 2 ^ 8 = 0) := by
  simp only [decode_eq_ok_iff, List.mem_cons, List.not_mem_nil, or_false]
  constructor
  · rintro ⟨i, rfl⟩
    cases i with
    | seed p =>
      have hp := p.isLt
      rw [encode, commandWord_toNat, BitVec.toNat_ofNat]
      omega
    | byte x =>
      have hx := x.isLt
      rw [encode, commandWord_toNat, BitVec.toNat_ofNat, BitVec.toNat_setWidth]
      omega
    | nop | init | flush | read | emit => decide
  · have hcw := cw.isLt
    have encodes (i : Instr) (h : (encode i).toNat = cw.toNat) : ∃ i, encode i = cw := ⟨i, BitVec.eq_of_toNat_eq h⟩
    rintro (⟨hop | hop | hop | hop | hop, himm⟩ | hop | ⟨hop, himm⟩)
    · exact encodes .nop (show 0 = cw.toNat by omega)
    · exact encodes .init (show 0x0100000000 = cw.toNat by omega)
    · exact encodes .flush (show 0x0400000000 = cw.toNat by omega)
    · exact encodes .read (show 0x0500000000 = cw.toNat by omega)
    · exact encodes .emit (show 0x0600000000 = cw.toNat by omega)
    · refine encodes (.seed (immField cw)) ?_
      rw [encode, commandWord_toNat, immField_toNat, BitVec.toNat_ofNat]
      omega
    · refine encodes (.byte (BitVec.ofNat 8 (cw.toNat % 2 ^ 32))) ?_
      rw [encode, commandWord_toNat, BitVec.toNat_setWidth, BitVec.toNat_ofNat, BitVec.toNat_ofNat]
      omega

/-- R41 as a number: the words that are not legal. -/
theorem illegal_iff (cw : CommandWord) :
    (∃ e, decode cw = .error e) ↔
      (7 ≤ cw.toNat / 2 ^ 32) ∨
      (cw.toNat / 2 ^ 32 ∈ [0, 1, 4, 5, 6] ∧ cw.toNat % 2 ^ 32 ≠ 0) ∨
      (cw.toNat / 2 ^ 32 = 3 ∧ cw.toNat % 2 ^ 32 / 2 ^ 8 ≠ 0) := by
  rw [illegal_iff_not_legal, legal_iff]
  simp only [List.mem_cons, List.not_mem_nil, or_false]
  omega

/-- An illegal word on an unfaulted engine takes `IllegalCommand`. -/
theorem acceptWord_illegal {cw : CommandWord} {e : IllegalWord} {s : Machine.State} (hs : s.ERR = false)
    (hd : decode cw = .error e) : Machine.acceptWord cw s = .next (Machine.takeIllegalCommand s) := by
  rw [Machine.acceptWord_eq, Machine.afterWord, Machine.gate_unfaulted _ hs, hd]

/-- Settles O5: the complement of the legal words, each of which takes the exception. -/
theorem illegalWordsAreTheThreeCases : Obligations.IllegalWordsAreTheThreeCases :=
  fun cw => ⟨illegal_iff cw, fun _ hs ⟨_, hd⟩ => acceptWord_illegal hs hd⟩

/-! ### How many words are legal -/

/-- The commands as their operands: five without one, SEED with a word, BYTE with a byte. -/
def instrEquivOperands : Instr ≃ Fin 5 ⊕ Word ⊕ Byte where
  toFun
    | .nop => .inl 0
    | .init => .inl 1
    | .flush => .inl 2
    | .read => .inl 3
    | .emit => .inl 4
    | .seed p => .inr (.inl p)
    | .byte x => .inr (.inr x)
  invFun
    | .inl 0 => .nop
    | .inl 1 => .init
    | .inl 2 => .flush
    | .inl 3 => .read
    | .inl 4 => .emit
    | .inr (.inl p) => .seed p
    | .inr (.inr x) => .byte x
  left_inv i := by cases i <;> rfl
  right_inv
    | .inl k => by fin_cases k <;> rfl
    | .inr (.inl _) => rfl
    | .inr (.inr _) => rfl

theorem natCard_bitVec (w : Nat) : Nat.card (BitVec w) = 2 ^ w :=
  (Nat.card_congr BitVec.equivFin.toEquiv).trans (Nat.card_fin _)

theorem natCard_instr : Nat.card Instr = 5 + (2 ^ 32 + 2 ^ 8) := by
  rw [Nat.card_congr instrEquivOperands, Nat.card_sum, Nat.card_sum, Nat.card_fin, natCard_bitVec, natCard_bitVec]

/-- Settles O6: the legal words are as many as the commands, since no two commands have the same word. -/
theorem countOfLegalWords : Obligations.CountOfLegalWords := by
  have hrange : {cw | ∃ i, decode cw = .ok i} = Set.range encode :=
    Set.ext fun _ => exists_congr fun _ => decode_eq_ok_iff
  calc Nat.card {cw // ∃ i, decode cw = .ok i}
      = Nat.card (Set.range encode) := congrArg (fun S : Set CommandWord => Nat.card S) hrange
    _ = Nat.card Instr := Nat.card_range_of_injective encode_injective
    _ = 4294967557 := natCard_instr

/-! ### The opcode map -/

/-- Masking a word masks its two fields. -/
theorem fields_of_masked {cw : CommandWord} {m op : BitVec 8} {n imm : Word}
    (h : cw &&& commandWord m n = commandWord op imm) : opField cw &&& m = op ∧ immField cw &&& n = imm := by
  rw [← commandWord_fields cw, commandWord_and] at h
  have hop := congrArg opField h
  have himm := congrArg immField h
  rw [opField_commandWord, opField_commandWord] at hop
  rw [immField_commandWord, immField_commandWord] at himm
  exact ⟨hop, himm⟩

/-- The mask of BYTE keeps the reserved bits of the operand field. -/
theorem reserved_zero_of_masked {imm : Word} (h : imm &&& 0xFFFFFF00#32 = 0#32) : imm.extractLsb' 8 24 = 0#24 := by
  have hextract : (imm &&& 0xFFFFFF00#32).extractLsb' 8 24 = 0#24 := by rw [h]; rfl
  rw [BitVec.extractLsb'_and, show (0xFFFFFF00#32).extractLsb' 8 24 = BitVec.allOnes 24 from rfl,
    BitVec.and_allOnes] at hextract
  exact hextract

/-- A word that fits the row of a command without operand is the word of that command. -/
theorem encode_of_fits_full {i : Instr} (hmask : i.row.mask = BitVec.allOnes 40) (hword : encode i = i.row.pattern)
    {cw : CommandWord} (h : cw &&& i.row.mask = i.row.pattern) : encode i = cw := by
  rw [hmask, BitVec.and_allOnes] at h
  exact hword.trans h.symm

theorem encode_of_fits_seed {cw : CommandWord}
    (h : cw &&& commandWord 0xFF#8 0#32 = commandWord 0x02#8 0#32) : encode (.seed (immField cw)) = cw := by
  have hop : opField cw &&& BitVec.allOnes 8 = 0x02#8 := (fields_of_masked h).1
  rw [BitVec.and_allOnes] at hop
  rw [encode, ← hop, commandWord_fields]

theorem encode_of_fits_byte {cw : CommandWord}
    (h : cw &&& commandWord 0xFF#8 0xFFFFFF00#32 = commandWord 0x03#8 0#32) :
    encode (.byte ((immField cw).extractLsb' 0 8)) = cw := by
  obtain ⟨hop, himm⟩ := fields_of_masked h
  have hop : opField cw &&& BitVec.allOnes 8 = 0x03#8 := hop
  rw [BitVec.and_allOnes] at hop
  rw [encode, setWidth_extract_of_reserved_zero (reserved_zero_of_masked himm), ← hop, commandWord_fields]

/-- A word that fits a row is the word of a command of that row. -/
theorem exists_encode_of_fits {r : TableRow} (hr : r ∈ opcodeTable) {cw : CommandWord} (h : cw &&& r.mask = r.pattern) :
    ∃ i : Instr, encode i = cw ∧ i.row = r := by
  simp only [opcodeTable, List.mem_cons, List.not_mem_nil, or_false] at hr
  obtain rfl | rfl | rfl | rfl | rfl | rfl | rfl := hr
  · exact ⟨.nop, encode_of_fits_full rfl rfl h, rfl⟩
  · exact ⟨.init, encode_of_fits_full rfl rfl h, rfl⟩
  · exact ⟨_, encode_of_fits_seed h, rfl⟩
  · exact ⟨_, encode_of_fits_byte h, rfl⟩
  · exact ⟨.flush, encode_of_fits_full rfl rfl h, rfl⟩
  · exact ⟨.read, encode_of_fits_full rfl rfl h, rfl⟩
  · exact ⟨.emit, encode_of_fits_full rfl rfl h, rfl⟩

/-- Every command's word fits the command's own row, a row of the table under its mnemonic. -/
theorem encodes_in_row (i : Instr) : Laws.EncodesInRow.Statement i := by
  cases i with
  | nop => exact Laws.EncodesInRow.nop
  | init => exact Laws.EncodesInRow.init
  | seed p => exact Laws.EncodesInRow.seed p
  | byte x => exact Laws.EncodesInRow.byte x
  | flush => exact Laws.EncodesInRow.flush
  | read => exact Laws.EncodesInRow.read
  | emit => exact Laws.EncodesInRow.emit

/-- The mnemonic names the row. -/
theorem row_eq_of_mnemonic_eq : ∀ r ∈ opcodeTable, ∀ r' ∈ opcodeTable, r.mnemonic = r'.mnemonic → r = r' := by
  decide

/-- A row of the table decides decoding: the words that fit it are those of the commands with its mnemonic. -/
theorem fits_iff_decodes {r : TableRow} (hr : r ∈ opcodeTable) (cw : CommandWord) :
    cw &&& r.mask = r.pattern ↔ ∃ i, decode cw = .ok i ∧ i.mnemonic = r.mnemonic := by
  constructor
  · intro h
    obtain ⟨i, rfl, rfl⟩ := exists_encode_of_fits hr h
    obtain ⟨-, hname, -⟩ := encodes_in_row i
    exact ⟨i, decode_encode i, hname.symm⟩
  · rintro ⟨i, hd, hi⟩
    obtain ⟨hmem, hname, hfits⟩ := encodes_in_row i
    rw [← row_eq_of_mnemonic_eq _ hmem _ hr (hname.trans hi), ← encode_of_decode hd]
    exact eq_of_beq hfits

/-- Settles O4: a word that fits a row is the word of one command, which has one row. -/
theorem tableRowsDecideDecoding : Obligations.TableRowsDecideDecoding := by
  refine ⟨fun r hr => fits_iff_decodes hr, fun r hr r' hr' cw h h' => ?_, fun cw hcw => ?_⟩
  · obtain ⟨i, hi, rfl⟩ := exists_encode_of_fits hr h
    obtain ⟨j, hj, rfl⟩ := exists_encode_of_fits hr' h'
    rw [encode_injective (hi.trans hj.symm)]
  · exact (illegal_iff cw).mpr (.inl (by omega))

end Sys2Proof
end

section
/-! PROOFS. The step on what the host presents next (spec/40_control_commands.md R47), and runs over lists of words and of
commands (spec/30_encoding.md R46). -/

namespace Sys2Proof.Machine

/-! ### One step -/

theorem afterStimulus_of_idle {s : State} (h : s.pending = []) : afterStimulus s = s := by
  rw [afterStimulus, h]

theorem afterStimulus_of_command {s : State} {cw : CommandWord} {rest : List Stimulus}
    (h : s.pending = .command cw :: rest) : afterStimulus s = afterWord cw (s.withPending rest) := by
  rw [afterStimulus, h]

theorem afterWord_of_decode {cw : CommandWord} {i : Instr} (hd : decode cw = .ok i) (s : State) :
    afterWord cw s = gate (effect i) s := by
  rw [afterWord, hd]

theorem afterWord_encode (i : Instr) (s : State) : afterWord (encode i) s = gate (effect i) s :=
  afterWord_of_decode (decode_encode i) s

theorem step_of_command {s : State} {cw : CommandWord} {rest : List Stimulus} {i : Instr}
    (hp : s.pending = .command cw :: rest) (hd : decode cw = .ok i) : step s = exec i (s.withPending rest) := by
  rw [step_eq, afterStimulus_of_command hp, afterWord_of_decode hd, exec_eq_gate]

theorem decodeTableWord_eq_some_iff {nbits w : Nat} {i : Instr} :
    decodeTableWord nbits w = some i ↔ decode (tableWord nbits w) = .ok i := by
  rw [decodeTableWord]
  cases decode (tableWord nbits w) <;> simp

/-- Settles O7: the step decodes the head of the host's list, where `withFetchWord` places its word. -/
theorem stepRunsDecodedCommand : Obligations.StepRunsDecodedCommand := by
  refine ⟨fun s cw rest i => step_of_command, fun s nbits w i hi => ?_⟩
  exact step_of_command (s := s.withFetchWord nbits w) rfl (decodeTableWord_eq_some_iff.mp hi)

/-- Settles O10: `afterStimulus` of an idle host is the state itself. -/
theorem idleStepChangesNothing : Obligations.IdleStepChangesNothing := by
  intro s h
  rw [step_eq, afterStimulus_of_idle h]

/-! ### Runs over words -/

theorem run_eq_iterate (k : Nat) (s : State) : core.run k s = .next (afterStimulus^[k] s) := by
  induction k generalizing s with
  | zero => rfl
  | succ k ih => rw [run_succ, ih, Function.iterate_succ_apply]

theorem State.withPending_self {s : State} {p : List Stimulus} (h : s.pending = p) : s.withPending p = s := by
  rw [← h]
  rfl

theorem blockGuard_withPending (s : State) (p : List Stimulus) :
    blockGuard (s.withPending p) = (blockGuard s).withPending p := by
  obtain ⟨hfull, h⟩ | ⟨hopen, h⟩ := blockGuard_cases s
  · rw [h, blockGuard_of_full (s := s.withPending p) hfull]
    rfl
  · rw [h, blockGuard_of_open (s := s.withPending p) hopen]

/-- No command looks at what the host has still to present. -/
theorem effect_withPending (i : Instr) (s : State) (p : List Stimulus) :
    effect i (s.withPending p) = (effect i s).withPending p := by
  cases i with
  | byte x => exact blockGuard_withPending (absorb x s) p
  | nop | init | seed | flush | read | emit => rfl

/-- What a word does with the registers and the outputs does not depend on what the host presents after it. -/
theorem afterWord_withPending (cw : CommandWord) (s : State) (p : List Stimulus) :
    afterWord cw (s.withPending p) = (afterWord cw s).withPending p := by
  cases he : s.ERR with
  | true => rw [afterWord, afterWord, gate_faulted _ he, gate_faulted (s := s.withPending p) _ he]
  | false =>
    rw [afterWord, afterWord, gate_unfaulted _ he, gate_unfaulted (s := s.withPending p) _ he]
    cases decode cw with
    | ok i => exact effect_withPending i s p
    | error e => rfl

/-- A word leaves what the host presents after it as it is. -/
theorem afterWord_pending (cw : CommandWord) (s : State) : (afterWord cw s).pending = s.pending := by
  rw [← State.withPending_self (s := s) rfl, afterWord_withPending]
  rfl

/-- The state after a list of words, one after another. -/
def afterWords (cws : List CommandWord) (s : State) : State :=
  cws.foldl (fun s cw => afterWord cw s) s

theorem afterWords_concat (cws : List CommandWord) (cw : CommandWord) (s : State) :
    afterWords (cws ++ [cw]) s = afterWord cw (afterWords cws s) := by
  rw [afterWords, List.foldl_append]
  rfl

/-- As many steps as the host presents words are those words, one after another. -/
theorem iterate_words {s : State} {cws : List CommandWord} {rest : List Stimulus}
    (h : s.pending = cws.map .command ++ rest) :
    afterStimulus^[cws.length] s = afterWords cws (s.withPending rest) := by
  induction cws generalizing s with
  | nil => exact (State.withPending_self h).symm
  | cons cw cws ih =>
    rw [List.length_cons, Function.iterate_succ_apply, afterStimulus_of_command h, ih (afterWord_pending cw _),
      ← afterWord_withPending]
    rfl

/-! ### Runs over commands -/

/-- The state of an unfaulted engine after a list of commands, one after another. -/
def afterCommands (is : List Instr) (s : State) : State :=
  is.foldl (fun s i => effect i s) s

theorem afterCommands_append (is js : List Instr) (s : State) :
    afterCommands (is ++ js) s = afterCommands js (afterCommands is s) :=
  List.foldl_append

theorem afterCommands_ERR (is : List Instr) (s : State) : (afterCommands is s).ERR = s.ERR := by
  induction is generalizing s with
  | nil => rfl
  | cons i is ih => exact (ih (effect i s)).trans (effect_ERR i s)

theorem afterCommands_pending (is : List Instr) (s : State) : (afterCommands is s).pending = s.pending := by
  induction is generalizing s with
  | nil => rfl
  | cons i is ih => exact (ih (effect i s)).trans (effect_pending i s)

/-- On an unfaulted engine the words of commands have the effects of the commands. -/
theorem afterWords_encode {s : State} (he : s.ERR = false) (is : List Instr) :
    afterWords (is.map encode) s = afterCommands is s := by
  induction is generalizing s with
  | nil => rfl
  | cons i is ih =>
    have hword : afterWord (encode i) s = effect i s := (afterWord_encode i s).trans (gate_unfaulted _ he)
    rw [List.map_cons, afterWords, List.foldl_cons, hword]
    exact ih ((effect_ERR i s).trans he)

theorem stimuliOf_eq (is : List Instr) : stimuliOf is = (is.map encode).map .command :=
  List.map_map.symm

/-- The run of an unfaulted engine over commands that the host presents next. -/
theorem run_commands {s : State} {is : List Instr} {rest : List Stimulus} (he : s.ERR = false)
    (hp : s.pending = stimuliOf is ++ rest) :
    core.run is.length s = .next (afterCommands is (s.withPending rest)) := by
  rw [stimuliOf_eq] at hp
  rw [run_eq_iterate, ← List.length_map (f := encode), iterate_words hp]
  exact congrArg _ (afterWords_encode (s := s.withPending rest) he is)

end Sys2Proof.Machine
end

section
/-! PROOFS. A stream continued (spec/30_encoding.md R45, spec/42_output_commands.md R62): the reference over a sequence cut
in two, and what BYTE commands followed by READ put out. -/

namespace Sys2Proof.Machine

/-! ### The reference over a sequence cut in two -/

theorem adlerHalves_lt (a b : Nat) (S : List Byte) :
    (adlerHalves a b S).1 < Config.M ∧ (adlerHalves a b S).2 < Config.M := by
  have mod_lt (n : Nat) : n % Config.M < Config.M := Nat.mod_lt n (by decide)
  induction S using List.reverseRecOn with
  | nil => exact ⟨mod_lt a, mod_lt b⟩
  | append_singleton S x _ =>
    rw [adlerHalves, List.foldl_append]
    exact ⟨mod_lt _, mod_lt _⟩

theorem adlerHalves_append (a b : Nat) (X Y : List Byte) :
    adlerHalves a b (X ++ Y) = adlerHalves (adlerHalves a b X).1 (adlerHalves a b X).2 Y := by
  obtain ⟨ha, hb⟩ := adlerHalves_lt a b X
  rw [adlerHalves.eq_def (adlerHalves a b X).1, Nat.mod_eq_of_lt ha, Nat.mod_eq_of_lt hb, adlerHalves,
    List.foldl_append]
  rfl

/-- The halves are reduced, so packing keeps them. -/
theorem halves_update (p : Word) (X : List Byte) :
    ((lo16 (update p X)).toNat, (hi16 (update p X)).toNat) = adlerHalves (lo16 p).toNat (hi16 p).toNat X := by
  obtain ⟨ha, hb⟩ := adlerHalves_lt (lo16 p).toNat (hi16 p).toNat X
  rw [Config.M] at ha hb
  rw [update, adler, lo16_pack, hi16_pack, BitVec.toNat_ofNat, BitVec.toNat_ofNat, Nat.mod_eq_of_lt (by omega),
    Nat.mod_eq_of_lt (by omega)]

/-- The law of concatenation (R65). -/
theorem update_append (p : Word) (X Y : List Byte) : update p (X ++ Y) = update (update p X) Y := by
  have hhalves := halves_update p X
  rw [update, adler, adlerHalves_append, ← hhalves]
  rfl

theorem update_val_nil (s : State) : update (val s) [] = val s := by
  rw [update, val, lo16_packMod, hi16_packMod]
  exact packMod_congr (Nat.mod_mod _ _) (Nat.mod_mod _ _)

/-! ### CHUNK and CONT -/

theorem effect_withinBounds {s : State} (h : WithinBounds s) (i : Instr) : WithinBounds (effect i s) := by
  rw [withinBounds_iff] at h ⊢
  exact effect_sumsWithin (by decide) le_rfl i (fun p _ => seedWithin_loose p) h

theorem val_afterChunk {s : State} (h : WithinBounds s) (S : List Byte) :
    val (afterCommands (chunkCommands S) s) = update (val s) S := by
  induction S generalizing s with
  | nil => exact (update_val_nil s).symm
  | cons x S ih =>
    calc val (afterCommands (chunkCommands S) (effect (.byte x) s))
        = update (val (effect (.byte x) s)) S := ih (effect_withinBounds h _)
      _ = update (update (val s) [x]) S := by rw [val_effect h, valueAfter]
      _ = update (val s) (x :: S) := (update_append _ [x] S).symm

theorem afterChunk_trace (S : List Byte) (s : State) : (afterCommands (chunkCommands S) s).trace = s.trace := by
  induction S generalizing s with
  | nil => rfl
  | cons x S ih => exact (ih _).trans ((effect_trace (.byte x) s).trans (List.append_nil _))

/-- The commands of CONT are those of CHUNK and then READ, which puts out the value. -/
theorem afterCont_trace {s : State} (h : WithinBounds s) (S : List Byte) :
    (afterCommands (contCommands S) s).trace = s.trace ++ [.res (update (val s) S)] := by
  rw [contCommands, afterCommands_append]
  refine (effect_trace .read _).trans ?_
  rw [afterChunk_trace, val_afterChunk h, outputsOf]

theorem contCommands_length (S : List Byte) : (contCommands S).length = S.length + 1 := by
  rw [contCommands, chunkCommands, List.length_append, List.length_map, List.length_singleton]

/-- Settles O43: the bytes take the value to the reference over them, and READ puts the value out. -/
theorem contContinuesTheStream : Obligations.ContContinuesTheStream := by
  intro s S rest h he hp
  refine ⟨afterCommands (contCommands S) (s.withPending rest), ?_, ?_, afterCommands_pending _ _, ?_⟩
  · rw [← contCommands_length]
    exact run_commands he hp
  · exact (afterCommands_ERR _ _).trans he
  · exact afterCont_trace (s := s.withPending rest) h S

end Sys2Proof.Machine
end

section
/-! PROOFS. The hints NOP and FLUSH show in no output (spec/30_encoding.md R42). -/

namespace Sys2Proof.Machine

/-- A hint takes no engine, faulted or not, to a state that can be told from the one before. -/
theorem afterHint_indistinguishable {hint : Instr} (hh : hint = .nop ∨ hint = .flush) (s : State) :
    Indistinguishable s (afterWord (encode hint) s) := by
  rw [afterWord_encode]
  cases he : s.ERR with
  | true =>
    rw [gate_faulted _ he]
    exact ⟨rfl, rfl, rfl, rfl⟩
  | false =>
    rw [gate_unfaulted _ he]
    have hval : val (effect hint s) = val s := val_effect_of_hint_or_output (hh.elim .inl (.inr ∘ .inl)) s
    have hsilent : outputsOf hint (val s) = [] := by obtain rfl | rfl := hh <;> rfl
    refine ⟨hval.symm, (effect_ERR hint s).symm, (effect_pending hint s).symm, ?_⟩
    rw [effect_trace, hsilent, List.append_nil]

theorem iterate_withinBounds {s : State} (h : WithinBounds s) (k : Nat) : WithinBounds (afterStimulus^[k] s) :=
  run_invariant boundsKeptByEveryStep h (run_eq_iterate k s)

theorem run_add (j k : Nat) (s : State) : core.run (j + k) s = core.run k (afterStimulus^[j] s) := by
  rw [run_eq_iterate, run_eq_iterate, Nat.add_comm, Function.iterate_add_apply]

/-- A run over words from the host, cut in two. -/
theorem run_words (s : State) (xs ys : List CommandWord) (k : Nat) :
    core.run (xs.length + k) (s.withPending ((xs ++ ys).map .command)) =
      core.run k (afterWords xs (s.withPending (ys.map .command))) := by
  rw [run_add, iterate_words (rest := ys.map .command) List.map_append]
  rfl

theorem afterWords_withinBounds {s : State} (h : WithinBounds s) (cws : List CommandWord) (rest : List Stimulus) :
    WithinBounds (afterWords cws (s.withPending rest)) := by
  have hiterate : afterStimulus^[cws.length] (s.withPending (cws.map .command ++ rest)) =
      afterWords cws (s.withPending rest) := iterate_words rfl
  have hs : WithinBounds (s.withPending (cws.map .command ++ rest)) := h
  exact hiterate ▸ iterate_withinBounds hs cws.length

/-- Settles O52: the states with and without the hint cannot be told apart, and stay so over the words after it. -/
theorem hintsChangeNoOutput : Obligations.HintsChangeNoOutput := by
  intro s xs ys hint h hh
  have hu : WithinBounds (afterWords xs (s.withPending (ys.map .command))) :=
    afterWords_withinBounds h xs _
  have hu' : WithinBounds (afterWords (xs ++ [encode hint]) (s.withPending (ys.map .command))) :=
    afterWords_withinBounds h _ _
  rw [afterWords_concat] at hu'
  obtain ⟨t, t', hrun, hrun', heq⟩ := (afterHint_indistinguishable hh _).run_congr hu hu' ys.length
  refine ⟨t, t', (run_words s xs ys _).trans hrun, ?_, heq.trace_eq.symm, heq.val_eq.symm, heq.err_eq.symm⟩
  rw [← afterWords_concat, ← run_words, List.length_append, List.append_assoc] at hrun'
  rw [Nat.add_right_comm]
  exact hrun'

end Sys2Proof.Machine
end

section
/-! PROOFS. The assembler on source lines (spec/30_encoding.md R44, R45): what it refuses, and what it expands. -/

namespace Sys2Proof.Machine

theorem assemble_of_wellFormed {l : SourceLine} (h : l.wellFormed = true) : assemble l = .ok (wordsOf l) :=
  if_pos h

theorem assemble_of_illFormed {l : SourceLine} (h : l.wellFormed = false) : assemble l = .error .operandOutOfRange :=
  if_neg (by rw [h]; decide)

/-- A line whose one check is a bound gives its words within the bound and is refused outside it. -/
theorem assemble_of_bound {l : SourceLine} {n bound : Nat} {ws : List CommandWord}
    (hl : l.wellFormed = decide (n < bound)) (hws : n < bound → wordsOf l = ws) :
    assemble l = if n < bound then .ok ws else .error .operandOutOfRange := by
  split
  case isTrue h => rw [assemble_of_wellFormed (hl.trans (decide_eq_true h)), hws h]
  case isFalse h => exact assemble_of_illFormed (hl.trans (decide_eq_false h))

/-- The word of SEED as a number. -/
theorem encode_seed_ofNat {p : Nat} (h : p < 2 ^ 32) :
    encode (.seed (BitVec.ofNat 32 p)) = BitVec.ofNat 40 (0x0200000000 + p) := by
  apply BitVec.eq_of_toNat_eq
  rw [encode, commandWord_toNat, BitVec.toNat_ofNat, BitVec.toNat_ofNat, BitVec.toNat_ofNat]
  omega

/-- The word of BYTE as a number. -/
theorem encode_byte_ofNat {x : Nat} (h : x < 2 ^ 8) :
    encode (.byte (BitVec.ofNat 8 x)) = BitVec.ofNat 40 (0x0300000000 + x) := by
  apply BitVec.eq_of_toNat_eq
  rw [encode, commandWord_toNat, BitVec.toNat_setWidth, BitVec.toNat_ofNat, BitVec.toNat_ofNat, BitVec.toNat_ofNat]
  omega

/-- The words of every line but the raw directive are the words of commands. -/
theorem exists_wordsOf_eq_map_encode :
    ∀ {l : SourceLine}, (∀ w, l ≠ .word w) → ∃ is : List Instr, wordsOf l = is.map encode
  | .word w, h => absurd rfl (h w)
  | .nop, _ => ⟨[.nop], rfl⟩
  | .init, _ => ⟨[.init], rfl⟩
  | .seed _, _ => ⟨[.seed _], rfl⟩
  | .byte _, _ => ⟨[.byte _], rfl⟩
  | .flush, _ => ⟨[.flush], rfl⟩
  | .read, _ => ⟨[.read], rfl⟩
  | .emit, _ => ⟨[.emit], rfl⟩
  | .chunk _, _ | .calc _, _ | .update _ _, _ | .cont _, _ | .footer, _ => ⟨_, rfl⟩

theorem words_decode_of_assemble {l : SourceLine} {ws : List CommandWord} (hl : assemble l = .ok ws)
    (h : ∀ w, l ≠ .word w) : ∀ cw ∈ ws, ∃ i, decode cw = .ok i := by
  rw [assemble] at hl
  split at hl
  case isTrue =>
    cases hl
    obtain ⟨is, his⟩ := exists_wordsOf_eq_map_encode h
    rw [his]
    intro cw hcw
    obtain ⟨i, -, rfl⟩ := List.mem_map.mp hcw
    exact ⟨i, decode_encode i⟩
  case isFalse => cases hl

/-- Settles O54: the check of a line is the range of its operand, and the other lines are made of commands. -/
theorem assemblerNeverTruncates : Obligations.AssemblerNeverTruncates :=
  ⟨fun _ => assemble_of_bound rfl fun h => congrArg (fun cw => [cw]) (encode_seed_ofNat h),
    fun _ => assemble_of_bound rfl fun h => congrArg (fun cw => [cw]) (encode_byte_ofNat h),
    fun _ => assemble_of_bound rfl fun _ => rfl,
    fun _ => assemble_of_illFormed,
    fun _ _ => words_decode_of_assemble⟩

/-! ### Pseudo-commands -/

/-- Bytes written as numbers are in range. -/
theorem bytes_inRange (S : List Byte) : (S.map BitVec.toNat).all inByteRange = true := by
  rw [List.all_map, List.all_eq_true]
  exact fun x _ => decide_eq_true x.isLt

theorem word_inRange (p : Word) : inWordRange p.toNat = true :=
  decide_eq_true p.isLt

/-- Bytes written as numbers are read as those bytes. -/
theorem toBytes_map_toNat (S : List Byte) : toBytes (S.map BitVec.toNat) = S := by
  rw [toBytes, List.map_map]
  exact List.map_id'' (fun x => (BitVec.ofNat_toNat 8 x).trans (BitVec.setWidth_eq x)) S

/-- Settles O55: bytes and seeds are in range, and the sequences are those of the model's own lists of commands. -/
theorem pseudoCommandsExpand : Obligations.PseudoCommandsExpand := by
  intro p S
  have hS := bytes_inRange S
  have hp : (inWordRange p.toNat && (S.map BitVec.toNat).all inByteRange) = true := by rw [word_inRange, hS]; rfl
  refine ⟨?_, ?_, ?_, ?_, assemble_of_wellFormed rfl⟩
  · rw [assemble_of_wellFormed (l := .chunk _) hS, wordsOf, toBytes_map_toNat, chunkCommands]
  · rw [assemble_of_wellFormed (l := .calc _) hS, wordsOf, toBytes_map_toNat, calcCommands, chunkCommands]
    rfl
  · rw [assemble_of_wellFormed (l := .update _ _) hp, wordsOf, toBytes_map_toNat, updateCommands, chunkCommands,
      BitVec.ofNat_toNat, BitVec.setWidth_eq]
    rfl
  · rw [assemble_of_wellFormed (l := .cont _) hS, wordsOf, toBytes_map_toNat, contCommands, chunkCommands]

end Sys2Proof.Machine
end

section
/-! PROOFS. The text of a listing (spec/30_encoding.md R44, R46): the assembler reads back from it the word it was made
from. -/

namespace Sys2Proof.Machine

/-! ### Hexadecimal text -/

theorem hexDigit_hexChar {d : Nat} (h : d < 16) : hexDigit (hexChar d) = some d := by
  interval_cases d <;> rfl

theorem readDigits_cons {digit : Char → Option Nat} {c : Char} {d : Nat} (h : digit c = some d) (base acc : Nat)
    (cs : List Char) : readDigits base digit acc (c :: cs) = readDigits base digit (acc * base + d) cs := by
  rw [readDigits, h]

/-- Digits are read from left to right. -/
theorem readDigits_append {base : Nat} {digit : Char → Option Nat} {acc n : Nat} {cs : List Char}
    (h : readDigits base digit acc cs = some n) (ds : List Char) :
    readDigits base digit acc (cs ++ ds) = readDigits base digit n ds := by
  induction cs generalizing acc with
  | nil => cases h; rfl
  | cons c cs ih =>
    cases hd : digit c with
    | none => rw [readDigits, hd] at h; cases h
    | some d =>
      rw [readDigits_cons hd] at h
      rw [List.cons_append, readDigits_cons hd, ih h]

theorem readDigits_hexText (k n acc : Nat) :
    readDigits 16 hexDigit acc (hexText k n) = some (acc * 16 ^ k + n % 16 ^ k) := by
  induction k generalizing n with
  | zero => rw [pow_zero, Nat.mod_one, Nat.mul_one]; rfl
  | succ k ih =>
    have hmod : n % 16 ^ (k + 1) = n % 16 + 16 * (n / 16 % 16 ^ k) := by rw [pow_succ', Nat.mod_mul]
    rw [hexText, readDigits_append (ih (n / 16)), readDigits_cons (hexDigit_hexChar (Nat.mod_lt n (by decide))),
      readDigits, hmod]
    congr 1
    ring

theorem hexText_succ_ne_nil (k n : Nat) : hexText (k + 1) n ≠ [] :=
  List.append_ne_nil_of_right_ne_nil _ (List.cons_ne_nil _ _)

theorem readNumber_hex {cs : List Char} (h : cs ≠ []) :
    readNumber ('0' :: 'x' :: cs) = readDigits 16 hexDigit 0 cs := by
  cases cs with
  | nil => exact absurd rfl h
  | cons c cs => rfl

/-- The digits of a number that has no more of them are read as that number. -/
theorem readNumber_hexText {k n : Nat} (h : n < 16 ^ (k + 1)) :
    readNumber ('0' :: 'x' :: hexText (k + 1) n) = some n := by
  rw [readNumber_hex (hexText_succ_ne_nil k n), readDigits_hexText, Nat.mod_eq_of_lt h, Nat.zero_mul, Nat.zero_add]

/-! ### A line of two words -/

/-- A character that neither starts a comment nor a string, nor separates. -/
def isPlain (c : Char) : Bool := c != ';' && c != '"' && c != ' '

/-- A text of plain characters, at least one. -/
def isWord (cs : List Char) : Bool := !cs.isEmpty && cs.all isPlain

theorem isPlain_iff {c : Char} : isPlain c = true ↔ (c ≠ ';' ∧ c ≠ '"') ∧ c ≠ ' ' := by
  simp [isPlain]

theorem isWord_iff {cs : List Char} : isWord cs = true ↔ cs ≠ [] ∧ ∀ c ∈ cs, isPlain c = true := by
  simp [isWord]

theorem isPlain_hexChar {d : Nat} (h : d < 16) : isPlain (hexChar d) = true := by
  interval_cases d <;> rfl

theorem all_isPlain_hexText (k n : Nat) : (hexText k n).all isPlain = true := by
  induction k generalizing n with
  | zero => rfl
  | succ k ih =>
    rw [hexText, List.all_append, ih, List.all_cons, isPlain_hexChar (Nat.mod_lt n (by decide))]
    rfl

theorem isWord_hex (k n : Nat) : isWord ('0' :: 'x' :: hexText k n) = true :=
  all_isPlain_hexText k n

theorem dropComment_of_no_mark {cs : List Char} (h : ∀ c ∈ cs, c ≠ ';' ∧ c ≠ '"') : dropComment false cs = cs := by
  induction cs with
  | nil => rfl
  | cons c cs ih =>
    obtain ⟨⟨hcomment, hquote⟩, hcs⟩ := List.forall_mem_cons.mp h
    rw [dropComment, if_neg (fun hc => hcomment hc.1), if_neg hquote, ih hcs]

/-- A text is cut at the first separator. -/
theorem cutOnce_append {sep : Char} {cs : List Char} (h : ∀ c ∈ cs, c ≠ sep) (ds : List Char) :
    cutOnce sep (cs ++ sep :: ds) = (cs, some ds) := by
  induction cs with
  | nil => rw [List.nil_append, cutOnce, if_pos rfl]
  | cons c cs ih =>
    obtain ⟨hc, hcs⟩ := List.forall_mem_cons.mp h
    rw [List.cons_append, cutOnce, if_neg hc, ih hcs]

theorem dropSpaces_append {cs : List Char} (hne : cs ≠ []) (h : ∀ c ∈ cs, c ≠ ' ') (ds : List Char) :
    dropSpaces (cs ++ ds) = cs ++ ds := by
  cases cs with
  | nil => exact absurd rfl hne
  | cons c cs => exact List.dropWhile_cons_of_neg (by simpa using h c List.mem_cons_self)

section
variable {mnemonic operand : List Char} (hm : isWord mnemonic = true) (ho : isWord operand = true)
include hm ho

/-- A line of two words holds no comment and needs no trimming. -/
theorem trim_dropComment_of_words :
    trim (dropComment false (mnemonic ++ ' ' :: operand)) = mnemonic ++ ' ' :: operand := by
  obtain ⟨hm₀, hm⟩ := isWord_iff.mp hm
  obtain ⟨ho₀, ho⟩ := isWord_iff.mp ho
  have hmark : ∀ c ∈ mnemonic ++ ' ' :: operand, c ≠ ';' ∧ c ≠ '"' := by
    intro c hc
    obtain hc | hc := List.mem_append.mp hc
    · exact (isPlain_iff.mp (hm c hc)).1
    · obtain rfl | hc := List.mem_cons.mp hc
      · decide
      · exact (isPlain_iff.mp (ho c hc)).1
  have hstart := dropSpaces_append hm₀ (fun c hc => (isPlain_iff.mp (hm c hc)).2) (' ' :: operand)
  have hend := dropSpaces_append (List.reverse_ne_nil_iff.mpr ho₀)
    (fun c hc => (isPlain_iff.mp (ho c (List.mem_reverse.mp hc))).2) ([' '] ++ mnemonic.reverse)
  rw [dropComment_of_no_mark hmark, trim, hstart, List.reverse_append, List.reverse_cons, List.append_assoc, hend]
  simp

/-- A line of two words is a mnemonic and its operand. -/
theorem parseLine_of_words {l : SourceLine} (hl : parseCommand mnemonic (some operand) = .ok l) :
    parseLine (mnemonic ++ ' ' :: operand) = .ok (some l) := by
  have hcut : cutOnce ' ' (mnemonic ++ ' ' :: operand) = (mnemonic, some operand) :=
    cutOnce_append (fun c hc => (isPlain_iff.mp ((isWord_iff.mp hm).2 c hc)).2) operand
  rw [parseLine, trim_dropComment_of_words hm ho]
  split
  case h_1 hnil => exact absurd hnil (List.append_ne_nil_of_right_ne_nil _ (List.cons_ne_nil _ _))
  case h_2 => rw [hcut, hl]

end

/-! ### The lines of a listing -/

/-- A mnemonic with a number in hexadecimal assembles as the source line with that number. -/
theorem assembleLine_hex {mnemonic : List Char} {f : Nat → SourceLine} (hm : isWord mnemonic = true)
    (hf : ∀ operand, parseCommand mnemonic operand = numberLine f operand) {k n : Nat} (hn : n < 16 ^ (k + 1)) :
    assembleLine (mnemonic ++ ' ' :: '0' :: 'x' :: hexText (k + 1) n) = assemble (f n) := by
  have hparse : parseCommand mnemonic (some ('0' :: 'x' :: hexText (k + 1) n)) = .ok (f n) := by
    rw [hf, numberLine, readNumber_hexText hn]
  rw [assembleLine, parseLine_of_words hm (isWord_hex _ _) hparse]

theorem assembleLine_renderInstr (i : Instr) : assembleLine (renderInstr i) = .ok [encode i] := by
  cases i with
  | seed p =>
    have hline : assembleLine (renderInstr (.seed p)) = assemble (.seed p.toNat) :=
      assembleLine_hex (mnemonic := "SEED".toList) (k := 7) rfl (fun _ => rfl) p.isLt
    rw [hline, assemble_of_wellFormed (l := .seed _) (word_inRange p), wordsOf, BitVec.ofNat_toNat, BitVec.setWidth_eq]
  | byte x =>
    have hline : assembleLine (renderInstr (.byte x)) = assemble (.byte x.toNat) :=
      assembleLine_hex (mnemonic := "BYTE".toList) (k := 1) rfl (fun _ => rfl) x.isLt
    rw [hline, assemble_of_wellFormed (l := .byte _) (decide_eq_true x.isLt), wordsOf, BitVec.ofNat_toNat,
      BitVec.setWidth_eq]
  | nop | init | flush | read | emit => rfl

/-- The directive WORD takes any word, legal or not. -/
theorem assembleLine_word (cw : CommandWord) :
    assembleLine ("WORD 0x".toList ++ hexText 10 cw.toNat) = .ok [cw] := by
  have hline : assembleLine ("WORD 0x".toList ++ hexText 10 cw.toNat) = assemble (.word cw.toNat) :=
    assembleLine_hex (mnemonic := "WORD".toList) (k := 9) rfl (fun _ => rfl) cw.isLt
  rw [hline, assemble_of_wellFormed (l := .word _) (decide_eq_true cw.isLt), wordsOf, BitVec.ofNat_toNat,
    BitVec.setWidth_eq]

/-- Settles O56: a legal word is listed as its command, whose word it is, and an illegal one with the directive WORD. -/
theorem listingTextAssembles : Obligations.ListingTextAssembles := by
  intro cw
  rw [renderWord]
  cases hd : decode cw with
  | ok i => rw [← encode_of_decode hd]; exact assembleLine_renderInstr i
  | error e => exact assembleLine_word cw

end Sys2Proof.Machine
end

section
/-! PROOFS. The fault gate and the runs behind it (spec/40_control_commands.md R47, spec/60_exceptions.md R77, R80). -/

namespace Sys2Proof.Machine

/-! ### The fault gate -/

theorem exec_of_faulted {s : State} (he : s.ERR = true) (i : Instr) : exec i s = .next s := by
  rw [exec_eq_gate, gate_faulted _ he]

theorem exec_of_unfaulted {s : State} (he : s.ERR = false) (i : Instr) : exec i s = .next (effect i s) := by
  rw [exec_eq_gate, gate_unfaulted _ he]

/-- What a command can do: nothing behind the fault gate, its effect elsewhere. -/
theorem exec_cases {s t : State} {i : Instr} (h : exec i s = .next t) :
    (s.ERR = true ∧ t = s) ∨ (s.ERR = false ∧ t = effect i s) := by
  cases he : s.ERR with
  | true =>
    rw [exec_of_faulted he] at h
    cases h
    exact .inl ⟨rfl, rfl⟩
  | false => exact .inr ⟨rfl, eq_effect_of_exec he h⟩

/-- A faulted engine discards a word whether it decodes or not. -/
theorem afterWord_of_faulted {s : State} (he : s.ERR = true) (cw : CommandWord) : afterWord cw s = s := by
  rw [afterWord, gate_faulted _ he]

/-- Settles O8: the gate stands before every command's effect, and in a step before the decoder. -/
theorem faultGateDiscardsEveryWord : Obligations.FaultGateDiscardsEveryWord := by
  refine fun s he => ⟨exec_of_faulted he, fun cw rest hp => ?_⟩
  have hdiscard : afterWord cw (s.withPending rest) = s.withPending rest :=
    afterWord_of_faulted (s := s.withPending rest) he cw
  rw [step_eq, afterStimulus_of_command hp, hdiscard]
  rfl

/-! ### Runs -/

/-- Settles O9: every step answers a next state, so a run is an iteration. -/
theorem everyRunAnswersNext : Obligations.EveryRunAnswersNext :=
  fun k s => ⟨_, run_eq_iterate k s⟩

/-- The engine is faulted and no reset is to come. -/
def FaultedForGood (s : State) : Prop := s.ERR = true ∧ ∀ x ∈ s.pending, ∃ cw, x = .command cw

/-- Of the six things a step can do only two are open to a faulted engine without a reset to come: to idle, and to discard
the next word. -/
theorem step_faultedForGood {s t : State} (h : FaultedForGood s) (hst : step s = .next t) : FaultedForGood t := by
  obtain ⟨he, hwords⟩ := h
  obtain ⟨-, rfl⟩ | ⟨cw, rest, hp, -, rfl⟩ | ⟨_, _, _, -, he', -⟩ | ⟨_, _, _, -, he', -⟩ | ⟨rest, hp, -⟩ |
    ⟨cw, rest, hp, -⟩ := step_cases hst
  · exact ⟨he, hwords⟩
  · rw [hp, List.forall_mem_cons] at hwords
    exact ⟨he, hwords.2⟩
  · simp [he] at he'
  · simp [he] at he'
  · simp [hp] at hwords
  · simp [hp] at hwords

theorem not_successful_of_faulted {s : State} (he : s.ERR = true) : successful s = false := by
  rw [successful, he, Bool.not_true, Bool.false_and]

/-- Settles O16: every step keeps the fault while only words are to come, and a faulted state is not a successful end. -/
theorem faultedRunNeverSucceeds : Obligations.FaultedRunNeverSucceeds := by
  intro k s t he hwords hrun
  obtain ⟨het, -⟩ : FaultedForGood t := run_invariant (fun _ _ => step_faultedForGood) ⟨he, hwords⟩ hrun
  exact ⟨het, not_successful_of_faulted het⟩

end Sys2Proof.Machine
end

section
/-! PROOFS. The control commands NOP, INIT and SEED (spec/40_control_commands.md R48, R49, R50), and what the commands that
put nothing out leave unchanged. -/

namespace Sys2Proof.Machine

/-! ### The frame of the silent commands -/

/-- Settles O31: behind the gate nothing changes; elsewhere no effect touches the flag or the host's list, and the outputs
of these commands are empty. -/
theorem frameOfSilentCommands : Obligations.FrameOfSilentCommands := by
  intro s t i hi hex
  obtain ⟨-, rfl⟩ | ⟨-, rfl⟩ := exec_cases hex
  · exact ⟨rfl, rfl, rfl, fun _ => ⟨rfl, rfl, rfl⟩⟩
  · have hsilent : outputsOf i (val s) = [] := by obtain rfl | rfl | ⟨p, rfl⟩ | ⟨x, rfl⟩ | rfl := hi <;> rfl
    refine ⟨effect_ERR i s, effect_pending i s, ?_, ?_⟩
    · rw [effect_trace, hsilent, List.append_nil]
    · rintro rfl
      exact ⟨rfl, rfl, rfl⟩

/-! ### NOP and INIT -/

/-- Settles O18: NOP has no effect for the gate to hold back. -/
theorem nopResult : Obligations.NopResult := by
  intro s
  cases he : s.ERR with
  | true => exact exec_of_faulted he .nop
  | false => exact exec_of_unfaulted he .nop

/-- The halves of `0x00000001` are the identity. -/
theorem loadHalves_one (s : State) : loadHalves 0x00000001#32 s = loadIdentity s := by
  have ha : zextHalf (lo16 0x00000001#32) = 0x00000001#32 := by decide
  have hb : zextHalf (hi16 0x00000001#32) = 0x00000000#32 := by decide
  rw [loadHalves, ha, hb, loadIdentity]

/-- Settles O19: INIT is `loadIdentity` behind the gate, and `loadIdentity` is SEED's effect for the identity value. -/
theorem initResult : Obligations.InitResult := by
  refine fun s => ⟨fun he => exec_of_unfaulted he .init, fun he => exec_of_faulted he .init, ?_⟩
  have heffect : effect .init = effect (.seed 0x00000001#32) := funext fun s => (loadHalves_one s).symm
  rw [exec_eq_gate, exec_eq_gate, heffect]

/-! ### SEED -/

theorem zextHalf_eq_ofNat (h : Half) : zextHalf h = BitVec.ofNat 32 h.toNat :=
  (BitVec.ofNat_toNat 32 h).symm

/-- The halves of a state's value are its accumulators reduced. -/
theorem zextHalf_halves_val (s : State) :
    zextHalf (lo16 (val s)) = modM s.A ∧ zextHalf (hi16 (val s)) = modM s.B := by
  constructor <;> apply BitVec.eq_of_toNat_eq
  · rw [zextHalf_toNat, val, lo16_packMod, modM_toNat]
  · rw [zextHalf_toNat, val, hi16_packMod, modM_toNat]

/-- Seeding the value that READ puts out changes nothing in the state READ leaves. -/
theorem loadHalves_val_effect_read (s : State) : loadHalves (val s) (effect .read s) = effect .read s := by
  obtain ⟨ha, hb⟩ := zextHalf_halves_val s
  rw [loadHalves, ha, hb]
  rfl

/-- Settles O20: the two halves as numbers, and READ's state as the seed of READ's value. -/
theorem seedResult : Obligations.SeedResult := by
  constructor
  · intro p s he
    rw [exec_of_unfaulted he, effect, loadHalves, zextHalf_eq_ofNat, zextHalf_eq_ofNat, lo16_toNat, hi16_toNat]
    rfl
  · intro s he
    refine ⟨effect .read s, val s, exec_of_unfaulted he .read, effect_trace .read s, ?_⟩
    rw [exec_of_unfaulted ((effect_ERR .read s).trans he)]
    exact congrArg _ (loadHalves_val_effect_read s)

end Sys2Proof.Machine
end

section
/-! PROOFS. The data commands BYTE and FLUSH (spec/41_data_commands.md R51, R52, R54, R55), one command at a time. -/

namespace Sys2Proof.Machine

/-! ### BYTE -/

theorem zextByte_eq_ofNat (x : Byte) : zextByte x = BitVec.ofNat 32 x.toNat :=
  (BitVec.ofNat_toNat 32 x).symm

/-- Settles O22: the block guard compares the 13-bit count that `absorb` leaves. -/
theorem byteInEveryState : Obligations.ByteInEveryState := by
  intro x s he
  rw [exec_of_unfaulted he, effect, ← zextByte_eq_ofNat]
  obtain ⟨hfull, h⟩ | ⟨hopen, h⟩ := blockGuard_cases (absorb x s)
  · have hcount : s.CNT + 1#13 = 5552#13 := BitVec.eq_of_toNat_eq hfull
    rw [h, if_pos hcount]
    rfl
  · have hcount : s.CNT + 1#13 ≠ 5552#13 := fun hc => hopen (congrArg BitVec.toNat hc)
    rw [h, if_neg hcount]
    rfl

/-- Settles O38: the sums are within the bounds for one byte more, so the adders give them. -/
theorem addersNeverCarryOut : Obligations.AddersNeverCarryOut :=
  fun x _ h => ⟨(h.sums_le x).1, (h.sums_le x).2, absorb_A_toNat h x, absorb_B_toNat h x⟩

/-- From the counts that R14 allows between steps, BYTE reduces at the last one and only absorbs at the others. -/
theorem effect_byte_cases {s : State} (hn : s.CNT.toNat ≤ 5551) (x : Byte) :
    (s.CNT.toNat = 5551 ∧ effect (.byte x) s = reduce (absorb x s)) ∨
    (s.CNT.toNat < 5551 ∧ effect (.byte x) s = absorb x s) := by
  have hcount := absorb_CNT x hn
  obtain ⟨hfull, h⟩ | ⟨hopen, h⟩ := blockGuard_cases (absorb x s)
  · rw [hcount, Config.NMAX] at hfull
    exact .inl ⟨by omega, h⟩
  · rw [hcount, Config.NMAX] at hopen
    exact .inr ⟨by omega, h⟩

/-- Settles O21: within the bounds no adder carries out, so the guard reduces or keeps the sums over the naturals. -/
theorem byteResult : Obligations.ByteResult := by
  intro x s h he
  have hn : s.CNT.toNat ≤ 5551 := h.1
  rw [exec_of_unfaulted he]
  obtain ⟨hlast, heffect⟩ | ⟨hlt, heffect⟩ := effect_byte_cases hn x
  · rw [heffect, if_pos (by omega), reduce, modM, modM, absorb_A_toNat h, absorb_B_toNat h]
    rfl
  · rw [heffect, if_neg (by omega), ← (BitVec.toNat_eq_nat.mp (absorb_A_toNat h x)).2,
      ← (BitVec.toNat_eq_nat.mp (absorb_B_toNat h x)).2, ← (BitVec.toNat_eq_nat.mp (absorb_CNT x hn)).2]
    rfl

/-! ### FLUSH -/

/-- A reduction leaves nothing for a second one to do. -/
theorem reduce_reduce (s : State) : reduce (reduce s) = reduce s := by
  have modM_modM (v : Word) : modM (modM v) = modM v := by
    apply BitVec.eq_of_toNat_eq
    rw [modM_toNat, modM_toNat, Nat.mod_mod]
  rw [reduce, reduce_A, reduce_B, modM_modM, modM_modM]
  rfl

/-- Settles O23: FLUSH is `reduce`, which is idempotent and keeps the value. -/
theorem flushResult : Obligations.FlushResult := by
  intro s he
  refine ⟨reduce s, exec_of_unfaulted he .flush, rfl, Nat.le_of_lt_succ (modM_lt s.A), Nat.le_of_lt_succ (modM_lt s.B),
    ?_, val_reduce s⟩
  rw [exec_of_unfaulted ((reduce_ERR s).trans he), effect, reduce_reduce]

end Sys2Proof.Machine
end

section
/-! PROOFS. The three conditions of the engine and what leads from one to another (spec/41_data_commands.md R57). -/

namespace Sys2Proof.Machine

/-! ### The conditions -/

theorem condition_eq_fault_iff {s : State} : condition s = .fault ↔ s.ERR = true := by
  rw [condition]
  split
  · exact iff_of_true rfl ‹_›
  · exact iff_of_false (by split <;> simp) ‹_›

theorem condition_eq_start {s : State} (he : s.ERR = false) (hn : s.CNT = 0#13) : condition s = .start := by
  rw [condition, he, hn]
  rfl

theorem condition_eq_run {s : State} (he : s.ERR = false) (hn : s.CNT ≠ 0#13) : condition s = .run := by
  rw [condition, he, if_neg Bool.false_ne_true, if_neg hn]

/-! ### The transitions -/

theorem afterStimulus_of_reset {s : State} {rest : List Stimulus} (h : s.pending = .reset :: rest) :
    afterStimulus s = resetEngine (s.withPending rest) := by
  rw [afterStimulus, h]

theorem afterWord_of_illegal {s : State} {cw : CommandWord} {e : IllegalWord} (he : s.ERR = false)
    (hd : decode cw = .error e) : afterWord cw s = takeIllegalCommand s := by
  rw [afterWord, gate_unfaulted _ he, hd]

/-- The commands other than BYTE and NOP start a block. -/
theorem condition_effect_of_clearing {s : State} (he : s.ERR = false) {i : Instr}
    (hi : i = .init ∨ (∃ p, i = .seed p) ∨ i = .flush ∨ i = .read ∨ i = .emit) : condition (effect i s) = .start := by
  have hcount : (effect i s).CNT = 0#13 := by obtain rfl | ⟨p, rfl⟩ | rfl | rfl | rfl := hi <;> rfl
  exact condition_eq_start ((effect_ERR i s).trans he) hcount

/-- BYTE below the last count is in the middle of a block. -/
theorem condition_effect_byte_of_lt {s : State} (he : s.ERR = false) (hlt : s.CNT.toNat < 5551) (x : Byte) :
    condition (effect (.byte x) s) = .run ∧ (effect (.byte x) s).CNT = s.CNT + 1#13 := by
  obtain ⟨hlast, -⟩ | ⟨-, heffect⟩ := effect_byte_cases hlt.le x
  · exact absurd hlast hlt.ne
  · rw [heffect]
    refine ⟨condition_eq_run he fun hzero => ?_, rfl⟩
    have hcount := absorb_CNT x hlt.le
    rw [hzero] at hcount
    exact absurd hcount (Nat.succ_ne_zero _).symm

/-- BYTE at the last count ends its block. -/
theorem condition_effect_byte_of_last {s : State} (he : s.ERR = false) (hlast : s.CNT.toNat = 5551) (x : Byte) :
    condition (effect (.byte x) s) = .start := by
  obtain ⟨-, heffect⟩ | ⟨hlt, -⟩ := effect_byte_cases hlast.le x
  · rw [heffect]
    exact condition_eq_start he rfl
  · exact absurd hlast hlt.ne

/-- Settles O24: a word has the effect of its command, or takes the exception, on a state that shares the condition. -/
theorem conditionTransitions : Obligations.ConditionTransitions := by
  intro s t hn hst
  rw [step_eq] at hst
  cases hst
  refine ⟨fun rest hp => ?_, fun cw rest hp => ⟨fun hs => ?_, fun hs => ?_⟩⟩
  · rw [afterStimulus_of_reset hp]
    exact condition_eq_start rfl rfl
  · have he : (s.withPending rest).ERR = true := condition_eq_fault_iff.mp hs
    rw [afterStimulus_of_command hp, afterWord_of_faulted he]
    exact ⟨hs, rfl⟩
  · have he : (s.withPending rest).ERR = false := Bool.eq_false_iff.mpr (mt condition_eq_fault_iff.mpr hs)
    have heffect {i : Instr} (hd : decode cw = .ok i) : afterWord cw (s.withPending rest) = effect i (s.withPending rest) :=
      (afterWord_of_decode hd _).trans (gate_unfaulted _ he)
    rw [afterStimulus_of_command hp]
    refine ⟨fun hd => ?_, fun i hd hi => ?_, fun x hd hlt => ?_, fun x hd hlast => ?_, fun e hd => ?_⟩
    · rw [heffect hd]
      rfl
    · rw [heffect hd]
      exact condition_effect_of_clearing he hi
    · rw [heffect hd]
      exact condition_effect_byte_of_lt he hlt x
    · rw [heffect hd]
      exact condition_effect_byte_of_last he hlast x
    · rw [afterWord_of_illegal he hd]
      exact condition_eq_fault_iff.mpr rfl

end Sys2Proof.Machine
end

section
/-! PROOFS. Streams: the value after BYTE commands with hints and readings among them (spec/41_data_commands.md R56), and the
block positions of BYTE commands alone (R53, R58). -/

namespace Sys2Proof.Machine

/-! ### The value along a stream -/

/-- The reference reduces its start, so it sees the accumulators through the value only. -/
theorem update_val (s : State) (S : List Byte) : update (val s) S = adler s.A.toNat s.B.toNat S := by
  rw [update, val, lo16_packMod, hi16_packMod, adler, adler, adlerHalves, Nat.mod_mod, Nat.mod_mod]
  rfl

/-- Wherever the reductions fall, a stream takes the value to the reference over its bytes. -/
theorem val_afterStream {s : State} {is : List Instr} (h : WithinBounds s) (his : is.all continuesStream = true) :
    val (afterCommands is s) = update (val s) (bytesOf is) := by
  induction is generalizing s with
  | nil => exact (update_val_nil s).symm
  | cons i is ih =>
    rw [List.all_cons, Bool.and_eq_true] at his
    obtain ⟨hi, his⟩ := his
    have htail : val (afterCommands (i :: is) s) = update (valueAfter i (val s)) (bytesOf is) :=
      (ih (effect_withinBounds h i) his).trans (by rw [val_effect h])
    cases i with
    | init | seed => cases hi
    | byte x => exact htail.trans (update_append _ [x] _).symm
    | nop | flush | read | emit => exact htail

/-- Settles O40: the run is the commands one after another, and each keeps the value or takes one step of the reference. -/
theorem streamComputesAdler : Obligations.StreamComputesAdler := by
  intro s is rest h he his hp
  refine ⟨afterCommands is (s.withPending rest), run_commands he hp, (afterCommands_ERR _ _).trans he,
    afterCommands_pending _ _, ?_⟩
  rw [val_afterStream (s := s.withPending rest) h his, update_val]
  rfl

/-! ### Block positions -/

theorem effect_byte_CNT {s : State} (hn : s.CNT.toNat ≤ 5551) (x : Byte) :
    (effect (.byte x) s).CNT.toNat = (s.CNT.toNat + 1) % 5552 := by
  obtain ⟨hlast, heffect⟩ | ⟨hlt, heffect⟩ := effect_byte_cases hn x
  · rw [heffect, hlast]
    rfl
  · rw [heffect, absorb_CNT x hn, Nat.mod_eq_of_lt (by omega)]

/-- Where BYTE leaves the count at 0 it has reduced. -/
theorem effect_byte_reduced {s : State} (hn : s.CNT.toNat ≤ 5551) {x : Byte}
    (hzero : (effect (.byte x) s).CNT.toNat = 0) :
    (effect (.byte x) s).A.toNat < Config.M ∧ (effect (.byte x) s).B.toNat < Config.M := by
  obtain ⟨-, heffect⟩ | ⟨-, heffect⟩ := effect_byte_cases hn x
  · rw [heffect]
    exact ⟨modM_lt _, modM_lt _⟩
  · rw [heffect, absorb_CNT x hn] at hzero
    exact absurd hzero (Nat.succ_ne_zero _)

theorem afterChunk_CNT {s : State} (hn : s.CNT.toNat ≤ 5551) (S : List Byte) :
    (afterCommands (chunkCommands S) s).CNT.toNat = (s.CNT.toNat + S.length) % 5552 := by
  induction S generalizing s with
  | nil => exact (Nat.mod_eq_of_lt (Nat.lt_succ_of_le hn)).symm
  | cons x S ih =>
    have hcount := effect_byte_CNT hn x
    refine (ih (s := effect (.byte x) s) (by omega)).trans ?_
    rw [hcount, Nat.mod_add_mod, List.length_cons, Nat.add_assoc, Nat.add_comm 1]

/-- A chunk that ends with the count at 0 ends with a BYTE that reduced. -/
theorem afterChunk_reduced {s : State} (hn : s.CNT.toNat ≤ 5551) {S : List Byte} (hS : S ≠ [])
    (hzero : (afterCommands (chunkCommands S) s).CNT.toNat = 0) :
    (afterCommands (chunkCommands S) s).A.toNat < Config.M ∧ (afterCommands (chunkCommands S) s).B.toNat < Config.M := by
  induction S using List.reverseRecOn with
  | nil => exact absurd rfl hS
  | append_singleton S x _ =>
    rw [chunkCommands, List.map_append, afterCommands_append] at hzero ⊢
    have hprev : (afterCommands (chunkCommands S) s).CNT.toNat ≤ 5551 := by
      rw [afterChunk_CNT hn]
      omega
    exact effect_byte_reduced hprev hzero

/-- Settles O25: the count of the bytes modulo 5552, and the reduction of the BYTE that brings it to 0. -/
theorem blockPositions : Obligations.BlockPositions := by
  intro s S rest he hzero hp
  have hn : (s.withPending rest).CNT.toNat = 0 := congrArg BitVec.toNat hzero
  have hcount : (afterCommands (chunkCommands S) (s.withPending rest)).CNT.toNat = S.length % 5552 := by
    rw [afterChunk_CNT (by omega), hn, Nat.zero_add]
  refine ⟨afterCommands (chunkCommands S) (s.withPending rest), ?_, afterCommands_pending _ _, afterChunk_trace _ _,
    (afterCommands_ERR _ _).trans he, hcount, fun hS hmul => ?_⟩
  · rw [← List.length_map (f := Instr.byte)]
    exact run_commands he hp
  · exact afterChunk_reduced (by omega) hS (hcount.trans hmul)

end Sys2Proof.Machine
end

section
/-! PROOFS. The output commands READ and EMIT (spec/42_output_commands.md R59, R60, R62): a reduction, then output
events that depend on the value alone. -/

namespace Sys2Proof.Machine

/-! ### What READ and EMIT do -/

/-- Both commands reduce and then put out what they owe for the value before the reduction. -/
theorem effect_of_output {i : Instr} (hi : i = .read ∨ i = .emit) (s : State) :
    effect i s = (reduce s).putOut (outputsOf i (val s)) := by
  obtain rfl | rfl := hi
  · rw [effect, putRes, packed_reduce, outputsOf]
  · rw [effect, putBytes, packed_reduce, outputsOf]

theorem val_effect_of_output {i : Instr} (hi : i = .read ∨ i = .emit) (s : State) : val (effect i s) = val s :=
  val_effect_of_hint_or_output (.inr (.inr hi)) s

/-- READ and EMIT leave nothing to reduce. -/
theorem reduce_effect_of_output {i : Instr} (hi : i = .read ∨ i = .emit) (s : State) :
    reduce (effect i s) = effect i s := by
  have hputOut (t : State) (es : List OutEvent) : reduce (t.putOut es) = (reduce t).putOut es := rfl
  rw [effect_of_output hi, hputOut, reduce_reduce]

/-- A READ after READ or EMIT only puts the same value out again. -/
theorem effect_read_effect_of_output {i : Instr} (hi : i = .read ∨ i = .emit) (s : State) :
    effect .read (effect i s) = (effect i s).putOut [.res (val s)] := by
  rw [effect_of_output (.inl rfl), reduce_effect_of_output hi, val_effect_of_output hi, outputsOf]

/-- Settles O30: both commands keep the value and leave a reduced state, on which READ does nothing but put it out. -/
theorem readingIsRepeatable : Obligations.ReadingIsRepeatable := by
  intro s t he
  have repeatable {i : Instr} (hi : i = .read ∨ i = .emit) (hex : exec i s = .next t) :
      val t = val s ∧ exec .read t = .next (t.putOut [.res (val s)]) := by
    obtain rfl := eq_effect_of_exec he hex
    refine ⟨val_effect_of_output hi s, ?_⟩
    rw [exec_of_unfaulted ((effect_ERR i s).trans he), effect_read_effect_of_output hi]
  exact ⟨repeatable (.inl rfl), repeatable (.inr rfl)⟩

/-- Settles O32: behind the gate nothing changes; elsewhere the trace is extended, and an equal value means equal
remainders. -/
theorem frameOfOutputCommands : Obligations.FrameOfOutputCommands := by
  intro s t i hi hex
  obtain ⟨-, rfl⟩ | ⟨-, rfl⟩ := exec_cases hex
  · exact ⟨rfl, rfl, List.prefix_rfl, rfl, rfl⟩
  · refine ⟨effect_ERR i s, effect_pending i s, ?_, val_eq_iff.mp (val_effect_of_output hi s)⟩
    rw [effect_trace]
    exact List.prefix_append _ _

/-! ### The value and its bytes as numbers -/

/-- R23 as a number: the high half is `B mod M`, the low half `A mod M`. -/
theorem val_toNat (s : State) : (val s).toNat = s.B.toNat % 65521 * 65536 + s.A.toNat % 65521 := by
  rw [val, packMod, pack_toNat, half_ofNat_mod, half_ofNat_mod, Config.M]

theorem val_eq_ofNat (s : State) : val s = BitVec.ofNat 32 (s.B.toNat % 65521 * 65536 + s.A.toNat % 65521) :=
  (BitVec.toNat_eq_nat.mp (val_toNat s)).2

/-- The serial form of a packed value: each half, the high one first, most significant byte first. -/
theorem be32_pack (a b : Half) :
    be32 (pack a b) = [BitVec.ofNat 8 (b.toNat / 256), BitVec.ofNat 8 (b.toNat % 256),
      BitVec.ofNat 8 (a.toNat / 256), BitVec.ofNat 8 (a.toNat % 256)] := by
  have ha := a.isLt
  have hpack := pack_toNat a b
  have byte_eq (k n : Nat) (h : (pack a b).toNat / 2 ^ k % 256 = n % 256) :
      (pack a b).extractLsb' k 8 = BitVec.ofNat 8 n :=
    BitVec.eq_of_toNat_eq ((extractByte_toNat _ k).trans (h.trans (BitVec.toNat_ofNat n 8).symm))
  rw [be32, byte_eq 24 (b.toNat / 256) (by omega), byte_eq 16 (b.toNat % 256) (by omega),
    byte_eq 8 (a.toNat / 256) (by omega), byte_eq 0 (a.toNat % 256) (by omega)]

/-- Settles O26: READ puts out the value, which is its two halves as numbers and always canonical. -/
theorem readResult : Obligations.ReadResult := by
  refine fun s => ⟨fun he => ?_, fun he => exec_of_faulted he .read, val_eq_ofNat s, canonical_val s⟩
  rw [exec_of_unfaulted he, effect_of_output (.inl rfl), outputsOf, val_eq_ofNat]
  rfl

/-- Settles O27: EMIT puts out the serial form of the value, whose halves are the reduced accumulators. -/
theorem emitResult : Obligations.EmitResult := by
  refine fun s => ⟨fun he => ?_, fun he => exec_of_faulted he .emit⟩
  rw [exec_of_unfaulted he, effect_of_output (.inr rfl), outputsOf, val, packMod, be32_pack, half_ofNat_mod,
    half_ofNat_mod]
  rfl

end Sys2Proof.Machine
end

section
/-! PROOFS. The reference functions of spec/43_composite_operations.md: from seeds that are not canonical, moved from one
engine to another, over empty input and concatenations (R65, R67, R71, R72), and in closed form (R66, R69). -/

namespace Sys2Proof.Machine

/-! ### Seeds -/

/-- The value that SEED leaves computes as the seed itself: the reference reduces its start. -/
theorem update_val_loadHalves (p : Word) (s : State) (S : List Byte) : update (val (loadHalves p s)) S = update p S := by
  rw [update_val, loadHalves, State.withSums_A, State.withSums_B, zextHalf_toNat, zextHalf_toNat, update]

theorem update_canonicalOf (p : Word) (S : List Byte) : update (canonicalOf p) S = update p S := by
  rw [← val_loadHalves p State.reset, update_val_loadHalves]

theorem loadHalves_withinBounds (p : Word) (s : State) : WithinBounds (loadHalves p s) :=
  withinBounds_iff.mpr (loadHalves_sumsWithin (seedWithin_loose p) s)

/-- Settles O50: `canonicalOf p` is the value of the state that SEED p leaves, and SEED's halves are within the bounds. -/
theorem nonCanonicalSeeds : Obligations.NonCanonicalSeeds := by
  refine ⟨fun p S => (update_canonicalOf p S).symm, fun p s he => ?_, by decide, by decide, by decide⟩
  exact ⟨loadHalves p s, exec_of_unfaulted he (.seed p), he, loadHalves_withinBounds p s⟩

/-- Settles O49: the halves of the value are the reduced accumulators, which is what READ leaves. -/
theorem saveAndRestore : Obligations.SaveAndRestore := by
  intro s s' he he'
  obtain ⟨hA, hB⟩ := zextHalf_halves_val s
  exact ⟨effect .read s, loadHalves (val s) s', exec_of_unfaulted he .read, effect_trace .read s,
    exec_of_unfaulted he' (.seed (val s)), hA, hB, rfl⟩

/-! ### The empty input and concatenation -/

theorem calculate_eq_update (S : List Byte) : calculate S = update 0x00000001#32 S := rfl

/-- An empty chunk changes no canonical value (R67). -/
theorem update_nil_of_canonical {v : Word} (h : canonical v = true) : update v [] = v := by
  rw [canonical, Bool.and_eq_true, decide_eq_true_iff, decide_eq_true_iff] at h
  obtain ⟨hlo, hhi⟩ := h
  rw [update, adler, adlerHalves, List.foldl_nil, Nat.mod_eq_of_lt hlo, Nat.mod_eq_of_lt hhi, BitVec.ofNat_toNat,
    BitVec.ofNat_toNat, BitVec.setWidth_eq, BitVec.setWidth_eq, pack_lo16_hi16]

/-- Settles O46: INIT leaves the identity as the value, reset too, and READ puts out the value. -/
theorem emptyInput : Obligations.EmptyInput := by
  refine ⟨by decide, fun s he => ?_, ?_, fun _ => update_nil_of_canonical⟩
  · refine ⟨effect .init s, effect .read (effect .init s), exec_of_unfaulted he .init,
      exec_of_unfaulted ((effect_ERR .init s).trans he) .read, ?_⟩
    rw [effect_trace, effect, val_loadIdentity]
    rfl
  · obtain ⟨-, -, hval⟩ := boundsHoldAtReset
    refine ⟨effect .read State.reset, exec_of_unfaulted rfl .read, ?_⟩
    rw [effect_trace, hval]
    rfl

/-- Chunk after chunk is the same as all the bytes at once, empty chunks and no chunk at all included. -/
theorem foldl_update {v : Word} (h : canonical v = true) (chunks : List (List Byte)) :
    chunks.foldl update v = update v chunks.flatten := by
  induction chunks using List.reverseRecOn with
  | nil => exact (update_nil_of_canonical h).symm
  | append_singleton chunks S ih =>
    rw [List.foldl_concat, ih, ← update_append, List.flatten_concat]

/-- Settles O44: a split point makes two chunks, and the identity is canonical. -/
theorem concatenationLaw : Obligations.ConcatenationLaw := by
  have from_identity (X Y : List Byte) : update (update 0x00000001#32 X) Y = calculate (X ++ Y) :=
    (update_append _ X Y).symm
  refine ⟨fun p X Y => (update_append p X Y).symm, from_identity, fun S k => ?_, foldl_update (by decide)⟩
  rw [from_identity, List.take_append_drop]

/-! ### The closed form -/

/-- The first byte taken into the start, where the reduction can wait. -/
theorem adlerHalves_cons (a b : Nat) (x : Byte) (S : List Byte) :
    adlerHalves a b (x :: S) = adlerHalves (a + x.toNat) (b + (a + x.toNat)) S := by
  rw [adlerHalves, List.foldl_cons, adlerStep, Nat.mod_add_mod, ← Nat.add_mod]
  rfl

/-- The plain sum and the weighted sum of the recurrences, reduced once (R66). -/
theorem adlerHalves_eq_sums (a b : Nat) (S : List Byte) :
    adlerHalves a b S =
      ((a + ∑ i : Fin S.length, (S.get i).toNat) % Config.M,
        (b + S.length * a + ∑ i : Fin S.length, (S.length - i.val) * (S.get i).toNat) % Config.M) := by
  induction S generalizing a b with
  | nil => simp [adlerHalves]
  | cons x S ih =>
    have hplain : ∑ i : Fin (x :: S).length, ((x :: S).get i).toNat =
        x.toNat + ∑ i : Fin S.length, (S.get i).toNat :=
      Fin.sum_univ_succ _
    have hweighted : ∑ i : Fin (x :: S).length, ((x :: S).length - i.val) * ((x :: S).get i).toNat =
        (S.length + 1) * x.toNat + ∑ i : Fin S.length, (S.length - i.val) * (S.get i).toNat := by
      refine (Fin.sum_univ_succ _).trans ?_
      simp
    rw [adlerHalves_cons, ih, hplain, hweighted, List.length_cons]
    congr 2 <;> ring

theorem update_closedForm (p : Word) (S : List Byte) : update p S =
    packMod ((lo16 p).toNat + ∑ i : Fin S.length, (S.get i).toNat)
      ((hi16 p).toNat + S.length * (lo16 p).toNat + ∑ i : Fin S.length, (S.length - i.val) * (S.get i).toNat) := by
  rw [update, adler, adlerHalves_eq_sums, packMod]

theorem calculate_closedForm (S : List Byte) : calculate S =
    packMod (1 + ∑ i : Fin S.length, (S.get i).toNat)
      (S.length + ∑ i : Fin S.length, (S.length - i.val) * (S.get i).toNat) := by
  rw [calculate, adler, adlerHalves_eq_sums, packMod, Nat.zero_add, Nat.mul_one]

/-- Settles O45: by induction on the bytes, every reduction put off to the end. -/
theorem closedForm : Obligations.ClosedForm :=
  ⟨calculate_closedForm, update_closedForm, by decide, by decide⟩

theorem lo16_calculate (S : List Byte) :
    lo16 (calculate S) = BitVec.ofNat 16 ((1 + (S.map BitVec.toNat).sum) % Config.M) := by
  rw [calculate_closedForm, packMod, lo16_pack, ← Fin.sum_univ_fun_getElem]
  rfl

/-- Settles O47: the half `a` is a plain sum. -/
theorem orderSensitivity : Obligations.OrderSensitivity := by
  refine ⟨fun S S' hperm => ?_, by decide, by decide⟩
  rw [lo16_calculate, lo16_calculate, (hperm.map BitVec.toNat).sum_eq]

end Sys2Proof.Machine
end

section
/-! PROOFS. The runs of UPDATE and CALC (spec/43_composite_operations.md R63, R64, R70). -/

namespace Sys2Proof.Machine

theorem updateCommands_length (p : Word) (S : List Byte) : (updateCommands p S).length = S.length + 2 :=
  congrArg Nat.succ (contCommands_length S)

/-- UPDATE is SEED, which forgets what the engine held, and then CONT from the seed. -/
theorem afterUpdate_trace (p : Word) (S : List Byte) (s : State) :
    (afterCommands (updateCommands p S) s).trace = s.trace ++ [.res (update p S)] := by
  refine (afterCont_trace (loadHalves_withinBounds p s) S).trans ?_
  rw [update_val_loadHalves]
  rfl

/-- Settles O42: whatever the engine held, SEED brings it within the bounds, and the rest is CONT. -/
theorem updatePutsOutUpdate : Obligations.UpdatePutsOutUpdate := by
  intro s p S rest he hp
  refine ⟨afterCommands (updateCommands p S) (s.withPending rest), ?_, (afterCommands_ERR _ _).trans he,
    afterCommands_pending _ _, afterUpdate_trace p S (s.withPending rest)⟩
  rw [← updateCommands_length p]
  exact run_commands he hp

/-- INIT and SEED of the identity do the same in every state, faulted or not (R49). -/
theorem afterWord_init (s : State) : afterWord (encode .init) s = afterWord (encode (.seed 0x00000001#32)) s := by
  obtain ⟨-, -, hexec⟩ := initResult s
  rw [exec_eq_gate, exec_eq_gate] at hexec
  rw [afterWord_encode, afterWord_encode]
  exact Host.Outcome.next.inj hexec

theorem run_of_command {s : State} {cw : CommandWord} {rest : List Stimulus} (h : s.pending = .command cw :: rest)
    (k : Nat) : core.run (k + 1) s = core.run k (afterWord cw (s.withPending rest)) := by
  rw [run_succ, afterStimulus_of_command h]

/-- Settles O48: CALC and UPDATE differ in their first word only, and those two words do the same. -/
theorem calculateIsUpdateFromIdentity : Obligations.CalculateIsUpdateFromIdentity := by
  refine ⟨calculate_eq_update, fun s S rest => ?_⟩
  have hcalc := run_of_command (s := s.withPending (stimuliOf (calcCommands S) ++ rest)) rfl (S.length + 1)
  have hupdate :=
    run_of_command (s := s.withPending (stimuliOf (updateCommands 0x00000001#32 S) ++ rest)) rfl (S.length + 1)
  exact hcalc.trans ((congrArg _ (afterWord_init _)).trans hupdate.symm)

/-- Settles O41: the run of CALC is the run of UPDATE from the identity. -/
theorem calcPutsOutCalculate : Obligations.CalcPutsOutCalculate := by
  intro s S rest he hp
  obtain ⟨-, hrun⟩ := calculateIsUpdateFromIdentity
  obtain ⟨t, ht, hend⟩ := updatePutsOutUpdate
    (s.withPending (stimuliOf (updateCommands 0x00000001#32 S) ++ rest)) 0x00000001#32 S rest he rfl
  refine ⟨t, ?_, hend⟩
  rw [← State.withPending_self hp]
  exact (hrun s S rest).trans ht

end Sys2Proof.Machine
end

section
/-! PROOFS. The one exception and the way out of it (spec/60_exceptions.md R77 to R82, spec/70_reset_and_hazards.md R86):
the fault is taken by an illegal word, holds against every word, and ends at a reset. -/

namespace Sys2Proof.Machine

/-! ### Into the fault -/

theorem step_of_illegal {s : State} {cw : CommandWord} {rest : List Stimulus} {e : IllegalWord} (he : s.ERR = false)
    (hp : s.pending = .command cw :: rest) (hd : decode cw = .error e) :
    step s = .next (takeIllegalCommand (s.withPending rest)) := by
  rw [step_eq, afterStimulus_of_command hp, afterWord_of_illegal (s := s.withPending rest) he hd]

/-- Settles O11: taking the exception closes the fault gate, which discards everything from then on. -/
theorem illegalCommandEntry : Obligations.IllegalCommandEntry := by
  intro s cw rest e he hp hd
  obtain ⟨hcommands, hwords⟩ := faultGateDiscardsEveryWord (takeIllegalCommand (s.withPending rest)) rfl
  exact ⟨takeIllegalCommand (s.withPending rest), step_of_illegal he hp hd, rfl, hcommands, hwords⟩

/-! ### In the fault -/

theorem afterWords_of_faulted {s : State} (he : s.ERR = true) (cws : List CommandWord) : afterWords cws s = s :=
  List.foldl_fixed' (afterWord_of_faulted he) cws

/-- Settles O12: the run over the words is those words, one after another, and each is discarded. -/
theorem faultedEngineIsFrozen : Obligations.FaultedEngineIsFrozen := by
  intro s cws rest he hp
  rw [run_eq_iterate, iterate_words hp, afterWords_of_faulted (s := s.withPending rest) he]
  rfl

/-! ### Out of the fault -/

/-- The reset event as a state: the registers of the machine right after reset, and the host's side as it was. -/
theorem resetEngine_eq (s : State) : resetEngine s = { State.reset with pending := s.pending, trace := s.trace } := rfl

theorem step_of_reset {s : State} {rest : List Stimulus} (hp : s.pending = .reset :: rest) :
    step s = .next (resetEngine (s.withPending rest)) := by
  rw [step_eq, afterStimulus_of_reset hp]

theorem step_of_resetAndCommand {s : State} {cw : CommandWord} {rest : List Stimulus}
    (hp : s.pending = .resetAndCommand cw :: rest) :
    step s = .next (resetEngine (s.withPending (.command cw :: rest))) := by
  rw [step_eq, afterStimulus, hp]

/-- A step on a word, legal or not, accepts it on the state that has it no longer to come. -/
theorem step_eq_acceptWord {s : State} {cw : CommandWord} {rest : List Stimulus}
    (hp : s.pending = .command cw :: rest) : step s = acceptWord cw (s.withPending rest) := by
  rw [step_eq, afterStimulus_of_command hp, acceptWord_eq]

/-- Settles O14: the reset leaves the word it came with at the head of the host's list, where the next step accepts it. -/
theorem resetIsOrderedBeforeTheWord : Obligations.ResetIsOrderedBeforeTheWord := by
  refine ⟨fun s rest hp => ?_, fun s cw rest hp => ?_⟩
  · rw [step_of_reset hp, resetEngine_eq]
    rfl
  · exact ⟨resetEngine (s.withPending (.command cw :: rest)), step_of_resetAndCommand hp, resetEngine_eq _,
      step_eq_acceptWord rfl⟩

/-- Settles O17: the reset leaves an unfaulted engine, whatever it was before, and the rest is CALC. -/
theorem recoveryByReset : Obligations.RecoveryByReset := by
  intro s S rest hp
  rw [run_succ, afterStimulus_of_reset hp]
  exact calcPutsOutCalculate (resetEngine (s.withPending _)) S rest rfl rfl

/-! ### The fault flag over one step -/

/-- Of the six things a step can do only taking the exception leaves an unfaulted engine faulted. -/
theorem step_sets_err_iff {s t : State} (he : s.ERR = false) (hst : step s = .next t) :
    t.ERR = true ↔ ∃ cw rest e, s.pending = .command cw :: rest ∧ decode cw = .error e := by
  refine ⟨fun ht => ?_, fun ⟨cw, rest, e, hp, hd⟩ => ?_⟩
  · obtain ⟨-, rfl⟩ | ⟨_, _, -, he', -⟩ | ⟨_, _, _, -, -, -, rfl⟩ | ⟨cw, rest, e, hp, -, hd, -⟩ | ⟨_, -, rfl⟩ |
      ⟨_, _, -, rfl⟩ := step_cases hst
    · simp [he] at ht
    · simp [he] at he'
    · simp [effect_ERR, he] at ht
    · exact ⟨cw, rest, e, hp, hd⟩
    · simp [resetEngine] at ht
    · simp [resetEngine] at ht
  · rw [step_of_illegal he hp hd] at hst
    cases hst
    rfl

/-- Of the six things a step can do only a reset, alone or with a word, leaves a faulted engine unfaulted. -/
theorem step_clears_err_iff {s t : State} (he : s.ERR = true) (hst : step s = .next t) :
    t.ERR = false ↔ ∃ rest, s.pending = .reset :: rest ∨ ∃ cw, s.pending = .resetAndCommand cw :: rest := by
  refine ⟨fun ht => ?_, fun ⟨rest, hreset⟩ => ?_⟩
  · obtain ⟨-, rfl⟩ | ⟨_, _, -, -, rfl⟩ | ⟨_, _, _, -, he', -⟩ | ⟨_, _, _, -, he', -⟩ | ⟨rest, hp, -⟩ |
      ⟨cw, rest, hp, -⟩ := step_cases hst
    · simp [he] at ht
    · simp [he] at ht
    · simp [he] at he'
    · simp [he] at he'
    · exact ⟨rest, .inl hp⟩
    · exact ⟨rest, .inr ⟨cw, hp⟩⟩
  · obtain hp | ⟨cw, hp⟩ := hreset
    · rw [step_of_reset hp] at hst
      cases hst
      rfl
    · rw [step_of_resetAndCommand hp] at hst
      cases hst
      rfl

theorem errLevel_eq (s : State) : errLevel s = if s.ERR then 1#1 else 0#1 := by
  rw [errLevel]
  cases s.ERR <;> rfl

/-- Settles O15: both directions of the flag from the cases of a step; the level is the flag as a bit. -/
theorem errSetByIllegalWordOnly : Obligations.ErrSetByIllegalWordOnly :=
  fun _ t hst => ⟨fun he => step_sets_err_iff he hst, fun he => step_clears_err_iff he hst, errLevel_eq t⟩

end Sys2Proof.Machine
end

section
/-! PROOFS. The reset event (spec/70_reset_and_hazards.md R86): what it loads, and that nothing else ends a fault. -/

namespace Sys2Proof.Machine

/-- Settles O13: a reset alone answers the reset state with the host's side kept, and of the things a step can do only a
reset, alone or with a word, clears the flag. -/
theorem resetEvent : Obligations.ResetEvent := by
  refine ⟨fun s rest hp => ?_, fun s t hst he ht => (step_clears_err_iff he hst).mp ht, rfl, rfl, rfl, rfl⟩
  exact ⟨resetEngine (s.withPending rest), step_of_reset hp, rfl, rfl, rfl, rfl, rfl⟩

end Sys2Proof.Machine
end
